-- ==== Sys2Proof/Word.lean ====
section
/-! DEFINITION. The byte, and the indices of the register file and of the interrupt lines (spec 00_scope.md R5, R6, R7). -/

namespace Sys2Proof

/-- A Byte: unsigned, 0..255 (R6). Bit `i` has weight `2 ^ i` (R7, decision D2: log 18). -/
abbrev Byte := BitVec 8

/-- The index of a general register, 0..7 (R100). -/
abbrev RegIdx := Fin 8

/-- The number of an interrupt line, 0..7 (R5). -/
abbrev Line := Fin 8

end Sys2Proof
end

