-- ==== Sys2Proof/Syntax.lean ====
section
/-! DEFINITION. The thirteen instructions of CAO-8 (spec 30_encoding.md R301, R304), in the order of spec/opcode_table.json. -/

namespace Sys2Proof

/-- The four formats of R301. -/
inductive Format where
  /-- the opcode alone -/
  | f0
  /-- one register operand -/
  | fr
  /-- two register operands -/
  | frr
  /-- a register operand and an immediate -/
  | fri
  deriving DecidableEq, Repr

/-- The tagged operation identifiers of R306. -/
inductive Mnemonic where
  | hlt | ldi | mul | add | prn | pra | push | pop | call | ret | jmp | st | iret
  deriving DecidableEq, Repr

/-- An instruction with the operand bytes that follow its opcode. A register operand is kept as the whole byte the program
holds (R302: "The byte is used whole; it is not masked"), so that the `BadRegister` form is an instruction too (log 12). -/
inductive Instr where
  /-- HLT (R408) -/
  | hlt
  /-- LDI Rd, imm8 (R452) -/
  | ldi (d imm : Byte)
  /-- MUL Ra, Rb (R454) -/
  | mul (a b : Byte)
  /-- ADD Ra, Rb (R453) -/
  | add (a b : Byte)
  /-- PRN Ra (R501) -/
  | prn (a : Byte)
  /-- PRA Ra (R502) -/
  | pra (a : Byte)
  /-- PUSH Ra (R551) -/
  | push (a : Byte)
  /-- POP Rd (R552) -/
  | pop (d : Byte)
  /-- CALL Ra (R601) -/
  | call (a : Byte)
  /-- RET (R602) -/
  | ret
  /-- JMP Ra (R600) -/
  | jmp (a : Byte)
  /-- ST Ra, Rb (R553) -/
  | st (a b : Byte)
  /-- IRET (R603) -/
  | iret
  deriving DecidableEq, Repr

/-- The mnemonic of an instruction. -/
def Instr.mnemonic : Instr → Mnemonic
  | .hlt => .hlt
  | .ldi _ _ => .ldi
  | .mul _ _ => .mul
  | .add _ _ => .add
  | .prn _ => .prn
  | .pra _ => .pra
  | .push _ => .push
  | .pop _ => .pop
  | .call _ => .call
  | .ret => .ret
  | .jmp _ => .jmp
  | .st _ _ => .st
  | .iret => .iret

/-- The register operand bytes of an instruction, first operand first (R301, R302). -/
def Instr.registerBytes : Instr → List Byte
  | .hlt => []
  | .ldi d _ => [d]
  | .mul a b => [a, b]
  | .add a b => [a, b]
  | .prn a => [a]
  | .pra a => [a]
  | .push a => [a]
  | .pop d => [d]
  | .call a => [a]
  | .ret => []
  | .jmp a => [a]
  | .st a b => [a, b]
  | .iret => []

end Sys2Proof
end

