-- ==== Sys2Proof/WellFormed.lean ====
section
/-! DEFINITION. When an instruction is well formed (spec 30_encoding.md R302). -/

namespace Sys2Proof

/-- An operand byte names a register: its value is 0..7 (R302). -/
abbrev NamesRegister (b : Byte) : Prop := b.toNat ≤ 7

/-- Every register operand byte names a register. An immediate is always legal (R303, R308). An ill-formed instruction is still
an instruction: it decodes, and it faults with `BadRegister` (R302, R404). -/
abbrev Instr.WellFormed (i : Instr) : Prop := ∀ b ∈ i.registerBytes, NamesRegister b

end Sys2Proof
end

