-- ==== Sys2Proof/Decode.lean ====
section
/-! DEFINITION. The opcode map, the decoder and the encoder (spec 30_encoding.md R300..R309). The opcode assignment OPCODE is a
parameter (R304): every function here takes it as the argument `oc`; `decode` and `encode` take the spec's default. -/

namespace Sys2Proof

/-- An assignment of opcode bytes, the parameter OPCODE of R304; R305 asks that it be injective. -/
abbrev OpcodeMap := Mnemonic → Byte

/-- The default OPCODE of R304 (decision D1; the spec recalls it from general knowledge: PRESUMED, log 1, unsafe for a claim
about a binary made for another assignment). -/
def defaultOpcode : OpcodeMap
  | .hlt => 0x01
  | .ldi => 0x99
  | .mul => 0xAA
  | .add => 0xA8
  | .prn => 0x43
  | .pra => 0x42
  | .push => 0x4D
  | .pop => 0x4C
  | .call => 0x48
  | .ret => 0x09
  | .jmp => 0x50
  | .st => 0x9A
  | .iret => 0x0B

/-- All thirteen mnemonics, in the source's order (R304). -/
def Mnemonic.all : List Mnemonic :=
  [.hlt, .ldi, .mul, .add, .prn, .pra, .push, .pop, .call, .ret, .jmp, .st, .iret]

/-- The format column of R304. -/
def Mnemonic.format : Mnemonic → Format
  | .hlt => .f0
  | .ldi => .fri
  | .mul => .frr
  | .add => .frr
  | .prn => .fr
  | .pra => .fr
  | .push => .fr
  | .pop => .fr
  | .call => .fr
  | .ret => .f0
  | .jmp => .fr
  | .st => .frr
  | .iret => .f0

/-- The operand count of a format (R300, R301). -/
def Format.operandCount : Format → Nat
  | .f0 => 0
  | .fr => 1
  | .frr => 2
  | .fri => 2

/-- `Decode : Byte -> Option Mnemonic` of R306, total on all 256 byte values. -/
def lookup (oc : OpcodeMap) (b : Byte) : Option Mnemonic :=
  Mnemonic.all.find? fun m => oc m = b

/-- Why bytes do not decode. -/
inductive DecodeError where
  /-- the opcode byte is none of the thirteen (R307) -/
  | unknownOpcode
  /-- the opcode byte or an operand byte is not there -/
  | missingByte
  deriving DecidableEq, Repr

/-- The instruction a mnemonic makes with its operand bytes; a byte its format lacks is not looked at. -/
def Mnemonic.instr (b1 b2 : Byte) : Mnemonic → Instr
  | .hlt => .hlt
  | .ldi => .ldi b1 b2
  | .mul => .mul b1 b2
  | .add => .add b1 b2
  | .prn => .prn b1
  | .pra => .pra b1
  | .push => .push b1
  | .pop => .pop b1
  | .call => .call b1
  | .ret => .ret
  | .jmp => .jmp b1
  | .st => .st b1 b2
  | .iret => .iret

/-- The operand bytes of a mnemonic taken off the bytes after its opcode, whole (R301). -/
def takeOperands (m : Mnemonic) : Format → List Byte → Except DecodeError (Instr × List Byte)
  | .f0, rest => .ok (m.instr 0 0, rest)
  | .fr, b1 :: rest => .ok (m.instr b1 0, rest)
  | .frr, b1 :: b2 :: rest => .ok (m.instr b1 b2, rest)
  | .fri, b1 :: b2 :: rest => .ok (m.instr b1 b2, rest)
  | .fr, [] => .error .missingByte
  | .frr, [] => .error .missingByte
  | .frr, [_] => .error .missingByte
  | .fri, [] => .error .missingByte
  | .fri, [_] => .error .missingByte

/-- The decoder under an opcode assignment: the instruction at the head of the bytes and the bytes after it. The length follows
from the opcode alone (R300). -/
def decodeWith (oc : OpcodeMap) : List Byte → Except DecodeError (Instr × List Byte)
  | [] => .error .missingByte
  | op :: rest =>
    match lookup oc op with
    | none => .error .unknownOpcode
    | some m => takeOperands m m.format rest

/-- The decoder under the default assignment. -/
def decode (bytes : List Byte) : Except DecodeError (Instr × List Byte) := decodeWith defaultOpcode bytes

/-- The operand bytes of an instruction in the order of its format (R301). -/
def Instr.operandBytes : Instr → List Byte
  | .hlt => []
  | .ldi d imm => [d, imm]
  | .mul a b => [a, b]
  | .add a b => [a, b]
  | .prn a => [a]
  | .pra a => [a]
  | .push a => [a]
  | .pop d => [d]
  | .call a => [a]
  | .ret => []
  | .jmp a => [a]
  | .st a b => [a, b]
  | .iret => []

/-- The encoder under an opcode assignment: the opcode byte, then the operand bytes, at ascending addresses (R300, R301). -/
def encodeWith (oc : OpcodeMap) (i : Instr) : List Byte := oc i.mnemonic :: i.operandBytes

/-- The encoder under the default assignment. -/
def encode (i : Instr) : List Byte := encodeWith defaultOpcode i

/-- The operand byte that names register `r` (R302). -/
def regByte (r : RegIdx) : Byte := BitVec.ofNat 8 r.val

/-- The three bytes of a number whose bits are numbered as spec/opcode_table.json numbers them (byte 0 lowest); the bits at
`nbits` and above are taken as 0. -/
def tableBytes (nbits w : Nat) : List Byte :=
  let v := w % 2 ^ nbits
  [BitVec.ofNat 8 v, BitVec.ofNat 8 (v / 256), BitVec.ofNat 8 (v / 65536)]

/-- The instruction the decoder reads from an instruction whose bits are `w` (none where it refuses). -/
def decodeTableWord (nbits w : Nat) : Option Instr :=
  match decode (tableBytes nbits w) with
  | .ok (i, _) => some i
  | .error _ => none

end Sys2Proof
end

