-- ==== Sys2Proof/Machine/State.lean ====
section
/-! DEFINITION. The state of the CA-One CORE (spec 10_state.md), its reset (70_reset_and_hazards.md R800), and the reasons a step
can stop. -/

namespace Sys2Proof.Machine

/-- The fault reasons of R700. -/
inductive FaultReason where
  /-- code 1: the byte at PC is not an opcode (R307, R403) -/
  | unknownOpcode
  /-- code 2: an operand byte would lie beyond 0xFF (R404, decision D5: log 11) -/
  | operandOutOfRange
  /-- code 3: a register operand byte is 8..255 (R404, decision D6: log 12) -/
  | badRegister
  /-- code 4: the sequential successor or CALL's return address is 0x100 or above (R404, decision D4: log 10) -/
  | pcOverflow
  /-- code 5: the ALU is given a selector other than ADD or MUL (R451, decision D7: log 16); no instruction gives it one -/
  | aluUnsupported
  deriving DecidableEq, Repr

/-- The run state of the cycle state machine (R114). -/
inductive RunState where
  | running
  /-- the normal end of a run (R409, R805) -/
  | halted
  /-- the fault-stop: its reason, the PC of the faulting instruction and its opcode byte (R407) -/
  | faulted (reason : FaultReason) (fpc fop : Byte)
  deriving DecidableEq, Repr

/-- An event of the output trace (R500). -/
inductive OutEvent where
  /-- emitted by PRN -/
  | dec (v : Byte)
  /-- emitted by PRA -/
  | chr (v : Byte)
  deriving DecidableEq, Repr

/-- What the host does with the CORE during a run (R723): the moves the machine can be asked to make. -/
inductive HostMove where
  /-- the clock driver invokes one cycle (R400) -/
  | cycle
  /-- the timer event source ticks (R702) -/
  | timerEvent
  /-- a source on one of the lines EXTRA_IRQ_LINES raises its line (R704) -/
  | raiseLine (i : Line)
  deriving DecidableEq, Repr, Inhabited

/-- Memory as (address, byte) pairs: addresses rising, no entry equal to what an unlisted address reads as (`Memory.wf`). -/
abbrev Memory := List Host.Cell

/-- The state of the CORE, everything 10_state.md gives it, and the host's moves. -/
structure State where
  /-- R0..R7 (R100); R5 is IM, R6 is IS, R7 is SP (R102, R103, R104) -/
  regs : Vector Byte 8
  /-- the program counter (R106) -/
  pc : Byte
  /-- the instruction register (R108) -/
  ir : Byte
  /-- `interruptsEnabled` (R109) -/
  ie : Bool
  /-- `overflow`, reserved and inert (R110) -/
  ov : Bool
  /-- the run state (R114) -/
  run : RunState
  /-- the output trace, oldest event first (R115) -/
  out : List OutEvent
  /-- memory, 256 bytes (R116) -/
  mem : Memory
  /-- THE MODEL'S OWN: the host's next moves where they are said outright, oldest first (R10, R702, R723; DESIGN CHOICE, log 4);
  where none is listed the host's schedule gives the move -/
  moves : List HostMove
  /-- THE MODEL'S OWN: how many moves the host's schedule has given, the place it stands at (DESIGN CHOICE, log 4) -/
  turn : Nat
  deriving DecidableEq, Repr

/-- Why no move of the machine occurs. The fault-stop itself is a NEXT state whose `run` is `faulted` (log 2); these two say
that the machine stands still in a state the spec calls absorbing (log 3). -/
inductive Fault where
  /-- Raised by `step` when the run state is Halted: no cycle and no event occurs (R400, R409). Safe: nothing follows, as the
  spec says. -/
  | halted
  /-- Raised by `step` when the run state is Faulted: no cycle and no event occurs (R400, R407); it carries the fault report
  the host reads (R723). Safe: nothing follows, as the spec says. -/
  | faultStop (reason : FaultReason) (fpc fop : Byte)
  deriving DecidableEq, Repr

/-- Why a step has no meaning. -/
inductive Refusal where
  /-- An instruction without a meaning yet, rejected by name in `exec`. Safe. No arm answers it. -/
  | notModelled (mnemonic : String)
  /-- Raised by `step` for a listed host move `raiseLine i` where line `i` is not in EXTRA_IRQ_LINES: the platform has no such
  source, and R723 gives such an interaction no move. Safe. -/
  | lineNotWired (i : Line)
  deriving DecidableEq, Repr

/-- The machine right after reset (R800): every value is the spec's. Memory lists nothing: the launch image IMAGE is a
parameter (`State.launch`, log 7); with none given every byte reads as `unlistedByte` says (log 6). -/
def State.reset : State where
  regs := #v[0, 0, 0, 0, 0, 0, 0, 0xF8]
  pc := 0x00
  ir := 0x00
  ie := true
  ov := false
  run := .running
  out := []
  mem := []
  moves := []
  turn := 0

end Sys2Proof.Machine
end

