-- ==== Sys2Proof/Config.lean ====
section
/-! DEFINITION. What the spec leaves to the platform and the host for good: the set EXTRA_IRQ_LINES (spec 00_scope.md R5,
60_exceptions.md R704), and where the host places its cycles and events (70_reset_and_hazards.md R808).
The other two open parameters are arguments where they are used: OPCODE of the decoder and the cycle, IMAGE of `State.launch`. -/

namespace Sys2Proof

/-- EXTRA_IRQ_LINES: which of the lines 1..7 the platform has wired to a source of its own (R704, decision D15).
The spec leaves the set open, so it has no body here and every statement holds for every set (DESIGN CHOICE, log 5, safe).
Line 0 is the timer's and is never one of them: see `Machine.lineWired`. -/
opaque Config.extraIrqLine : Line → Bool

/-- What the host does, turn by turn and without end: the placement of timer events and raised lines between cycles (R702, R704,
R808). The spec allows every placement, endless ones too, so it has no body and every statement about a step holds for every
placement (a free value, DESIGN CHOICE, log 4, safe). -/
opaque Config.hostMove : Nat → Machine.HostMove

end Sys2Proof
end

