-- ==== Sys2Proof/Machine/Ops.lean ====
section
/-! DEFINITION. The named operations on memory, registers, the stack and the run state, interrupt entry and return
(spec 20_memory.md, 40_cycle_engine.md R407..R409, 42_output.md R500, 60_exceptions.md R700..R712, 44_control.md R603). -/

namespace Sys2Proof.Machine

/-! ### Memory (20_memory.md R200..R203) -/

/-- What an address reads as that the state does not list. The spec leaves the unloaded bytes of IMAGE open (R217, N3): the
model takes 0x00, as the start states of 95_test_vectors.md do (DESIGN CHOICE, log 6, unsafe for a claim about the memory of
`State.reset`; `State.launch` takes the whole image instead). -/
def unlistedByte (_a : Nat) : Byte := 0x00

/-- The byte at address `a`: the first entry listed for it, or what an unlisted address reads as (R203). -/
def Memory.read : Memory → Nat → Byte
  | [], a => unlistedByte a
  | (k, v) :: m, a => if k = a then v else Memory.read m a

/-- An entry put before the first entry of a greater address. -/
def Memory.place (a : Nat) (v : Byte) : Memory → Memory
  | [] => [(a, v)]
  | (k, w) :: m => if a < k then (a, v) :: (k, w) :: m else (k, w) :: Memory.place a v m

/-- The memory with nothing listed at `a`. -/
def Memory.drop (m : Memory) (a : Nat) : Memory := m.filter fun c => c.1 ≠ a

/-- `MemWrite`: set the byte at `a` to `v` and change no other address (R203), keeping the canonical form. -/
def Memory.write (m : Memory) (a : Nat) (v : Byte) : Memory :=
  if v = unlistedByte a then Memory.drop m a else Memory.place a v (Memory.drop m a)

/-- The canonical form: addresses strictly rising and within 0x00..0xFF, no entry equal to what an unlisted address reads as. -/
abbrev Memory.wf (m : Memory) : Prop :=
  m.Pairwise (fun c d => c.1 < d.1) ∧ ∀ c ∈ m, c.1 ≤ 0xFF ∧ c.2 ≠ unlistedByte c.1

/-- Bytes written at successive addresses from `a` on; an address beyond 0xFF does not exist and takes none (R201, R216). -/
def Memory.writeFrom (m : Memory) (a : Nat) : List Byte → Memory
  | [] => m
  | v :: vs => if a ≤ 0xFF then Memory.writeFrom (Memory.write m a v) (a + 1) vs else m

/-- `MemRead(a, 1)` (R203). -/
def State.memRead (s : State) (a : Byte) : Byte := Memory.read s.mem a.toNat

/-- `MemWrite(a, 1, v)` (R203). -/
def State.memWrite (s : State) (a v : Byte) : State := { s with mem := Memory.write s.mem a.toNat v }

/-- The machine launched with the image IMAGE: reset, and the loader has placed all 256 bytes (R217, R802, decision D17: log 7). -/
def State.launch (image : Vector Byte 256) : State :=
  { State.reset with mem := Memory.writeFrom [] 0 image.toList }

/-! ### Registers (10_state.md R100..R108) -/

/-- IM, the Interrupt Mask (R103). -/
abbrev im : RegIdx := 5

/-- IS, the Interrupt Status (R104). -/
abbrev is : RegIdx := 6

/-- SP, the stack pointer (R102). -/
abbrev sp : RegIdx := 7

/-- `x[i]`: read a general register; none is hardwired (R101). -/
def State.reg (s : State) (r : RegIdx) : Byte := s.regs[r]

/-- `x[i] <- v`: write a general register (R101). -/
def State.setReg (s : State) (r : RegIdx) (v : Byte) : State := { s with regs := s.regs.set r.val v r.isLt }

/-- `pc <- v`. -/
def State.setPc (s : State) (v : Byte) : State := { s with pc := v }

/-- `ir <- v`. -/
def State.setIr (s : State) (v : Byte) : State := { s with ir := v }

/-- `ie <- b`. -/
def State.setIe (s : State) (b : Bool) : State := { s with ie := b }

/-- The run state set. -/
def State.setRun (s : State) (r : RunState) : State := { s with run := r }

/-- The host's next moves set. -/
def State.setMoves (s : State) (ms : List HostMove) : State := { s with moves := ms }

/-- The default PC advance by the instruction's length (R406); the checks of R404 have kept the sum within 0xFF. -/
def State.advance (s : State) (n : Nat) : State := s.setPc (s.pc + BitVec.ofNat 8 n)

/-- `Emit(e)`: append an event to the output trace (R500). -/
def State.emit (s : State) (e : OutEvent) : State := { s with out := s.out ++ [e] }

/-! ### The stack (R206); R7 wraps modulo 256 and no edge is checked (R207, decision D12: log 14) -/

/-- R7 decremented, the first half of a push. -/
def State.decSp (s : State) : State := s.setReg sp (s.reg sp - 1)

/-- R7 incremented, the second half of a pop. -/
def State.incSp (s : State) : State := s.setReg sp (s.reg sp + 1)

/-- `Push(v)`: decrement R7, then write `v` where it points. -/
def State.push (s : State) (v : Byte) : State := s.decSp.memWrite (s.decSp.reg sp) v

/-- `PushReg(r)`: the register is read after the decrement, so for `r = 7` the byte written is the new R7
(00_scope.md R9, decision D13: log 13). -/
def State.pushReg (s : State) (r : RegIdx) : State := s.decSp.memWrite (s.decSp.reg sp) (s.decSp.reg r)

/-- `PopReg(d)`: read where R7 points, then increment R7; for `d = 7` this increments the byte just popped (R9, D13: log 13). -/
def State.popReg (s : State) (d : RegIdx) : State := (s.setReg d (s.memRead (s.reg sp))).incSp

/-- `PopPC()`. -/
def State.popPc (s : State) : State := (s.setPc (s.memRead (s.reg sp))).incSp

/-! ### The run state (R407, R409) -/

/-- The code numbers of R700 (log 22). -/
def FaultReason.code : FaultReason → Nat
  | .unknownOpcode => 1
  | .operandOutOfRange => 2
  | .badRegister => 3
  | .pcOverflow => 4
  | .aluUnsupported => 5

/-- `raise Fault(reason)`: the fault-stop (R407). It records the PC and the opcode byte in IR, and nothing else changes. -/
def State.raiseFault (s : State) (reason : FaultReason) : State := s.setRun (.faulted reason s.pc s.ir)

/-- `halt` (R409). -/
def State.halt (s : State) : State := s.setRun .halted

/-- The end of an instruction: its next state, or, where a check has failed, the fault-stop of the state it began in (R405). -/
def State.complete (s : State) : Except FaultReason State → Host.Outcome State Fault Refusal
  | .ok t => .next t
  | .error reason => .next (s.raiseFault reason)

/-! ### Interrupt entry and return (60_exceptions.md R710, 44_control.md R603) -/

/-- The byte `2 ^ i`. -/
def lineBit (i : Line) : Byte := BitVec.ofNat 8 (2 ^ i.val)

/-- The address of vector table entry `i`, `0xF8 + i` (R204, R712). -/
def vectorAddress (i : Line) : Byte := BitVec.ofNat 8 (0xF8 + i.val)

/-- R0..R7 in the order interrupt entry pushes them (R710). -/
def pushOrder : List RegIdx := [0, 1, 2, 3, 4, 5, 6, 7]

/-- R7..R0, the order in which IRET pops them (R603; conflict C2: log 20). -/
def popOrder : List RegIdx := [7, 6, 5, 4, 3, 2, 1, 0]

/-- `InterruptEntry(i)` (R710), the one operation by which an exception is taken: clear bit `i` of IS, clear `ie`, push PC, push
R0..R7, and go to the handler whose address stands in vector entry `i` after the pushes. IR is not written (D10: log 9). -/
def State.interruptEntry (s : State) (i : Line) : State :=
  let cleared := (s.setReg is (s.reg is &&& ~~~ lineBit i)).setIe false
  let saved := pushOrder.foldl State.pushReg (cleared.push cleared.pc)
  saved.setPc (saved.memRead (vectorAddress i))

/-- The return from an interrupt (R603): pop R7, R6, ..., R0, then PC, then set `ie`. It checks nothing (D25: log 20). -/
def State.interruptReturn (s : State) : State :=
  (popOrder.foldl State.popReg s).popPc.setIe true

/-! ### The interrupt sources outside the CORE (60_exceptions.md R702, R704) -/

/-- `RaiseTimerEvent`: set bit 0 of IS and touch nothing else (R702). -/
def State.raiseTimerEvent (s : State) : State := s.setReg is (s.reg is ||| 0x01)

/-- `RaiseLine(i)`: set bit `i` of IS (R704). -/
def State.raiseLine (s : State) (i : Line) : State := s.setReg is (s.reg is ||| lineBit i)

/-- Line `i` is one of EXTRA_IRQ_LINES, a subset of 1..7 (R704). -/
def lineWired (i : Line) : Bool := i ≠ 0 && Config.extraIrqLine i

/-! ### The host's moves (60_exceptions.md R723, 70_reset_and_hazards.md R808) -/

/-- A placement of the host's moves, turn by turn and without end. -/
abbrev HostSchedule := Nat → HostMove

/-- The move a schedule gives for a turn. Where it names a line the platform has not wired there is no such event (R704, R723):
the turn is a cycle (log 4). -/
def scheduledMove (host : HostSchedule) (n : Nat) : HostMove :=
  match host n with
  | .cycle => .cycle
  | .timerEvent => .timerEvent
  | .raiseLine i => if lineWired i then .raiseLine i else .cycle

/-- The host's next move: the first one listed, or the one its schedule gives (log 4). -/
def State.nextMoveWith (host : HostSchedule) (s : State) : HostMove :=
  match s.moves with
  | [] => scheduledMove host s.turn
  | m :: _ => m

/-- The state in which that move has been taken from the list or from the schedule; the CORE's own state is untouched. -/
def State.takeMove (s : State) : State :=
  { s with
    moves := s.moves.tail
    turn :=
      match s.moves with
      | [] => s.turn + 1
      | _ :: _ => s.turn }

end Sys2Proof.Machine
end

