-- ==== Sys2Proof/Machine/Operands.lean ====
section
/-! DEFINITION. The operand forms, with the checks made before any write, in the order of spec 40_cycle_engine.md R404:
operand bytes within 0xFF (D5), first then second register byte (D6), sequential successor (D4). -/

namespace Sys2Proof.Machine

/-- The first check of R404: the `n` operand bytes lie within 0xFF, else `OperandOutOfRange`. A cycle never comes here with
the check failing, since an instruction whose operand bytes are missing does not decode (log 21). -/
def State.operandsInRange (s : State) (n : Nat) : Except FaultReason Unit :=
  if s.pc.toNat + n > 0xFF then .error .operandOutOfRange else .ok ()

/-- A register operand byte: the register it names, else `BadRegister` (R302). -/
def registerOperand (b : Byte) : Except FaultReason RegIdx :=
  if h : b.toNat < 8 then .ok ⟨b.toNat, h⟩ else .error .badRegister

/-- The last check of R404: the sequential successor (or CALL's return address) after `n` operand bytes lies within 0xFF,
computed exactly, else `PcOverflow`. -/
def State.successorInRange (s : State) (n : Nat) : Except FaultReason Unit :=
  if s.pc.toNat + n + 1 > 0xFF then .error .pcOverflow else .ok ()

/-- Format FR with a sequential successor or a return address: PRN, PRA, PUSH, POP, CALL. -/
def State.operandR (s : State) (b1 : Byte) : Except FaultReason RegIdx := do
  s.operandsInRange 1
  let r ← registerOperand b1
  s.successorInRange 1
  return r

/-- Format FR without a successor: JMP. -/
def State.operandRJump (s : State) (b1 : Byte) : Except FaultReason RegIdx := do
  s.operandsInRange 1
  registerOperand b1

/-- Format FRR: MUL, ADD, ST. -/
def State.operandsRR (s : State) (b1 b2 : Byte) : Except FaultReason (RegIdx × RegIdx) := do
  s.operandsInRange 2
  let r1 ← registerOperand b1
  let r2 ← registerOperand b2
  s.successorInRange 2
  return (r1, r2)

/-- Format FRI: LDI. The immediate is taken whole and not checked (R303). -/
def State.operandsRI (s : State) (b1 imm : Byte) : Except FaultReason (RegIdx × Byte) := do
  s.operandsInRange 2
  let r1 ← registerOperand b1
  s.successorInRange 2
  return (r1, imm)

end Sys2Proof.Machine
end

