-- ==== Sys2Proof/Machine/Alu.lean ====
section
/-! DEFINITION. The ALU, LDI, ADD and MUL (spec 41_alu_and_load.md). -/

namespace Sys2Proof.Machine

/-- An ALU operation selector (R450). -/
inductive AluSelector where
  | add
  | mul
  /-- any selector outside the defined set (R451); no instruction passes one -/
  | other (code : Nat)
  deriving DecidableEq, Repr

/-- The ALU (R450): the exact result reduced modulo 256; a selector outside the defined set is `AluUnsupported`
(R451, decision D7: log 16). -/
def alu : AluSelector → Byte → Byte → Except FaultReason Byte
  | .add, a, b => .ok (BitVec.ofNat 8 (a.toNat + b.toNat))
  | .mul, a, b => .ok (BitVec.ofNat 8 (a.toNat * b.toNat))
  | .other _, _, _ => .error .aluUnsupported

/-- `x[a] <- ALU(sel, x[a], x[b]); pc <- pc + 3`: the shape ADD and MUL share (R453, R454). -/
def State.aluInto (s : State) (sel : AluSelector) (b1 b2 : Byte) : Except FaultReason State := do
  let (ra, rb) ← s.operandsRR b1 b2
  let v ← alu sel (s.reg ra) (s.reg rb)
  return (s.setReg ra v).advance 3

/-- LDI Rd, imm8 (R452). -/
def execLdi (d imm : Byte) (s : State) : Host.Outcome State Fault Refusal :=
  s.complete do
    let (rd, v) ← s.operandsRI d imm
    return (s.setReg rd v).advance 3

/-- MUL Ra, Rb (R454). -/
def execMul (a b : Byte) (s : State) : Host.Outcome State Fault Refusal := s.complete (s.aluInto .mul a b)

/-- ADD Ra, Rb (R453). -/
def execAdd (a b : Byte) (s : State) : Host.Outcome State Fault Refusal := s.complete (s.aluInto .add a b)

end Sys2Proof.Machine
end

