-- ==== Sys2Proof/Machine/Control.lean ====
section
/-! DEFINITION. JMP, CALL, RET and IRET (spec 44_control.md). -/

namespace Sys2Proof.Machine

/-- JMP Ra: `pc <- x[a]`, no default delta (R600). -/
def execJmp (a : Byte) (s : State) : Host.Outcome State Fault Refusal :=
  s.complete do
    let ra ← s.operandRJump a
    return s.setPc (s.reg ra)

/-- CALL Ra: push the return address PC + 2, then `pc <- x[a]`, read after the push (R601; 00_scope.md R9, decision D13: log 13). -/
def execCall (a : Byte) (s : State) : Host.Outcome State Fault Refusal :=
  s.complete do
    let ra ← s.operandR a
    let pushed := s.push (s.pc + 2)
    return pushed.setPc (pushed.reg ra)

/-- RET (R602). -/
def execRet (s : State) : Host.Outcome State Fault Refusal := .next s.popPc

/-- IRET (R603). -/
def execIret (s : State) : Host.Outcome State Fault Refusal := .next s.interruptReturn

end Sys2Proof.Machine
end

