-- ==== Sys2Proof/Machine/Halt.lean ====
section
/-! DEFINITION. HLT (spec 40_cycle_engine.md R408). -/

namespace Sys2Proof.Machine

/-- HLT: the run state becomes Halted; PC stays at the HLT (R408, decision D8: log 15). -/
def execHlt (s : State) : Host.Outcome State Fault Refusal := .next s.halt

end Sys2Proof.Machine
end

