-- ==== Sys2Proof/Machine/Output.lean ====
section
/-! DEFINITION. PRN and PRA (spec 42_output.md). -/

namespace Sys2Proof.Machine

/-- PRN Ra: emit `Dec(x[a])` (R501). -/
def execPrn (a : Byte) (s : State) : Host.Outcome State Fault Refusal :=
  s.complete do
    let ra ← s.operandR a
    return (s.emit (.dec (s.reg ra))).advance 2

/-- PRA Ra: emit `Chr(x[a])` (R502). -/
def execPra (a : Byte) (s : State) : Host.Outcome State Fault Refusal :=
  s.complete do
    let ra ← s.operandR a
    return (s.emit (.chr (s.reg ra))).advance 2

end Sys2Proof.Machine
end

