-- ==== Sys2Proof/Machine/Stack.lean ====
section
/-! DEFINITION. PUSH, POP and ST (spec 43_stack_and_store.md). -/

namespace Sys2Proof.Machine

/-- PUSH Ra (R551). -/
def execPush (a : Byte) (s : State) : Host.Outcome State Fault Refusal :=
  s.complete do
    let ra ← s.operandR a
    return (s.pushReg ra).advance 2

/-- POP Rd (R552). -/
def execPop (d : Byte) (s : State) : Host.Outcome State Fault Refusal :=
  s.complete do
    let rd ← s.operandR d
    return (s.popReg rd).advance 2

/-- ST Ra, Rb: `memory[value in Ra] := value in Rb` (R553). -/
def execSt (a b : Byte) (s : State) : Host.Outcome State Fault Refusal :=
  s.complete do
    let (ra, rb) ← s.operandsRR a b
    return (s.memWrite (s.reg ra) (s.reg rb)).advance 3

end Sys2Proof.Machine
end

