-- ==== Sys2Proof/Machine/Flags.lean ====
section
/-! DEFINITION. The flag computations. CAO-8 has no condition codes: no instruction computes a flag (spec 10_state.md R110, R111,
41_alu_and_load.md R450). What remains is the interrupt check on IS, IM and `ie` (60_exceptions.md R705..R708). -/

namespace Sys2Proof.Machine

/-- `masked = IS & IM` (R707): the lines that are pending and enabled (R705). -/
def State.masked (s : State) : Byte := s.reg is &&& s.reg im

/-- The lines in order of priority, line 0 highest (R708). -/
def linePriority : List Line := [0, 1, 2, 3, 4, 5, 6, 7]

/-- The lowest-numbered set bit of a byte, none for 0 (00_scope.md R7). -/
def lowestSetBit (b : Byte) : Option Line := linePriority.find? fun i => b.getLsbD i.val

/-- The interrupt check (R707): the line to service in this cycle, looked for only while `ie` is true. -/
def State.interruptDue (s : State) : Option Line := if s.ie then lowestSetBit s.masked else none

end Sys2Proof.Machine
end

