-- ==== Sys2Proof/Machine/Cycle.lean ====
section
/-! DEFINITION. The cycle (spec 40_cycle_engine.md R400..R405) and the moves of the host (60_exceptions.md R702, R704, R723), under
an opcode assignment `oc` and a placement `host` of the host's moves. -/

namespace Sys2Proof.Machine

/-- The bytes an instruction at PC could have: those at PC, PC+1 and PC+2 that lie within 0xFF (R300, R404). -/
def State.fetchBytes (s : State) : List Byte :=
  (([0, 1, 2] : List Nat).filter fun k => s.pc.toNat + k ≤ 0xFF).map fun k => Memory.read s.mem (s.pc.toNat + k)

/-- The fault of bytes that do not decode: an undecodable opcode (R403), or an operand byte beyond 0xFF, the first check of
R404 (decision D5: log 11). -/
def decodeFault : DecodeError → FaultReason
  | .unknownOpcode => .unknownOpcode
  | .missingByte => .operandOutOfRange

/-- `ir <- MemRead(pc, 1)` (R402); PC is not changed. -/
def State.fetchOpcode (s : State) : State := s.setIr (s.memRead s.pc)

/-- The instruction half of a cycle: fetch, dispatch, operands, execute (R402..R405). -/
def State.fetchExecuteWith (oc : OpcodeMap) (s : State) : Host.Outcome State Fault Refusal :=
  match decodeWith oc s.fetchBytes with
  | .ok (i, _) => exec i s.fetchOpcode
  | .error e => .next (s.fetchOpcode.raiseFault (decodeFault e))

/-- One cycle (R401): the service of one interrupt if one is due, else one instruction. -/
def State.cycleWith (oc : OpcodeMap) (s : State) : Host.Outcome State Fault Refusal :=
  match s.interruptDue with
  | some i => .next (s.interruptEntry i)
  | none => s.fetchExecuteWith oc

/-- One move of the host's table R723 in state Running: a cycle, or an event from outside the CORE (R702, R704). -/
def State.moveWith (oc : OpcodeMap) (host : HostSchedule) (s : State) : Host.Outcome State Fault Refusal :=
  match s.nextMoveWith host with
  | .cycle => s.takeMove.cycleWith oc
  | .timerEvent => .next s.takeMove.raiseTimerEvent
  | .raiseLine i => if lineWired i then .next (s.takeMove.raiseLine i) else .refused (.lineNotWired i)

/-- The machine's step under an opcode assignment and a placement of the host's moves: a move in state Running; in Halted and
Faulted no cycle and no event occurs (R400, R114, R715: log 3). -/
def State.stepWith (oc : OpcodeMap) (host : HostSchedule) (s : State) : Host.Outcome State Fault Refusal :=
  match s.run with
  | .running => s.moveWith oc host
  | .halted => .fault .halted
  | .faulted reason fpc fop => .fault (.faultStop reason fpc fop)

/-- Bytes written into memory from PC on, where the next cycle fetches (log 7). -/
def State.placeAtPc (s : State) (bytes : List Byte) : State :=
  { s with mem := Memory.writeFrom s.mem s.pc.toNat bytes }

end Sys2Proof.Machine
end

