-- ==== Sys2Proof/Machine/Step.lean ====
section
/-! DEFINITION. `step` under the spec's default opcode assignment (spec 30_encoding.md R304) and the host's own placement of its
moves, and an instruction placed where the
next step fetches. -/

namespace Sys2Proof.Machine

/-- The host's next move (R723), its schedule being the free value `Config.hostMove` (log 4). -/
def State.nextMove (s : State) : HostMove := s.nextMoveWith Config.hostMove

/-- One step of the machine (R400, R723) under the default OPCODE (log 1) and whatever the host does (log 4). -/
def step (s : State) : Host.Outcome State Fault Refusal := s.stepWith defaultOpcode Config.hostMove

/-- The state with the instruction whose bits are `w` stored at PC, the loader's work on those bytes (R216, log 7), and a cycle as
the host's very next move (log 4). -/
def State.withFetchWord (s : State) (nbits w : Nat) : State :=
  (s.placeAtPc (tableBytes nbits w)).setMoves (.cycle :: s.moves)

end Sys2Proof.Machine
end

