-- ==== Sys2Proof/Machine/Assembler.lean ====
section
/-! DEFINITION. The assembler text of spec 30_encoding.md R311 and R312: statements separated by `;` or a newline, the mnemonic in
capitals, operands separated by a comma, registers `R0`..`R7` (or SP, IM, IS), immediates in decimal or `0x` hexadecimal. The
machine never looks at text; this only names programs (log 25). -/

namespace Sys2Proof.Machine

/-- The spelling of a mnemonic (R304). -/
def mnemonicText : Mnemonic → List Char
  | .hlt => ['H', 'L', 'T']
  | .ldi => ['L', 'D', 'I']
  | .mul => ['M', 'U', 'L']
  | .add => ['A', 'D', 'D']
  | .prn => ['P', 'R', 'N']
  | .pra => ['P', 'R', 'A']
  | .push => ['P', 'U', 'S', 'H']
  | .pop => ['P', 'O', 'P']
  | .call => ['C', 'A', 'L', 'L']
  | .ret => ['R', 'E', 'T']
  | .jmp => ['J', 'M', 'P']
  | .st => ['S', 'T']
  | .iret => ['I', 'R', 'E', 'T']

/-- The parts of a text between the characters `p` accepts. -/
def splitText (p : Char → Bool) : List Char → List (List Char)
  | [] => [[]]
  | c :: cs =>
    match p c, splitText p cs with
    | true, parts => [] :: parts
    | false, [] => [[c]]
    | false, part :: parts => (c :: part) :: parts

/-- A text without the blanks around it. -/
def trimText (t : List Char) : List Char :=
  ((t.dropWhile fun c => c == ' ').reverse.dropWhile fun c => c == ' ').reverse

/-- How each digit is written, digit 0 first; a hexadecimal letter may be of either case (log 25). -/
def digitSpellings : List (List Char) :=
  [['0'], ['1'], ['2'], ['3'], ['4'], ['5'], ['6'], ['7'], ['8'], ['9'],
   ['A', 'a'], ['B', 'b'], ['C', 'c'], ['D', 'd'], ['E', 'e'], ['F', 'f']]

/-- A digit's value: its place among the spellings. -/
def digitValue (c : Char) : Option Nat := digitSpellings.findIdx? fun spellings => spellings.contains c

/-- The number a digit string writes in a base, `acc` being the digits before it; none where a character is no digit of it. -/
def digitsValue (base acc : Nat) : List Char → Option Nat
  | [] => some acc
  | c :: cs =>
    match digitValue c with
    | some d => if d < base then digitsValue base (acc * base + d) cs else none
    | none => none

/-- A number that is a Byte. -/
def byteOf? : Option Nat → Option Byte
  | some n => if n ≤ 255 then some (BitVec.ofNat 8 n) else none
  | none => none

/-- An immediate: decimal 0..255, or hexadecimal after `0x` (R311). -/
def immediateOf : List Char → Option Byte
  | [] => none
  | ['0', 'x'] => none
  | '0' :: 'x' :: digits => byteOf? (digitsValue 16 0 digits)
  | digits => byteOf? (digitsValue 10 0 digits)

/-- A register operand: `R0`..`R7` (R311), or one of the names SP, IM, IS (R312). -/
def registerOf : List Char → Option RegIdx
  | ['R', '0'] => some 0
  | ['R', '1'] => some 1
  | ['R', '2'] => some 2
  | ['R', '3'] => some 3
  | ['R', '4'] => some 4
  | ['R', '5'] => some 5
  | ['R', '6'] => some 6
  | ['R', '7'] => some 7
  | ['S', 'P'] => some 7
  | ['I', 'M'] => some 5
  | ['I', 'S'] => some 6
  | _ => none

/-- The instruction of a mnemonic and its operand texts, as its format asks (R301, R311). -/
def statementOf (m : Mnemonic) : Format → List (List Char) → Option Instr
  | .f0, [] => some (m.instr 0 0)
  | .fr, [a] => do
    let ra ← registerOf a
    return m.instr (regByte ra) 0
  | .frr, [a, b] => do
    let ra ← registerOf a
    let rb ← registerOf b
    return m.instr (regByte ra) (regByte rb)
  | .fri, [d, imm] => do
    let rd ← registerOf d
    let v ← immediateOf imm
    return m.instr (regByte rd) v
  | _, _ => none

/-- The operand texts after a mnemonic. -/
def operandTexts (t : List Char) : List (List Char) :=
  match trimText t with
  | [] => []
  | c :: cs => (splitText (fun ch => ch == ',') (c :: cs)).map trimText

/-- One statement. -/
def parseStatement (t : List Char) : Option Instr :=
  let name := (trimText t).takeWhile fun c => c != ' '
  match Mnemonic.all.find? fun m => mnemonicText m = name with
  | some m => statementOf m m.format (operandTexts ((trimText t).dropWhile fun c => c != ' '))
  | none => none

/-- The statements of a program, blank ones left out. -/
def programStatements (t : List Char) : List (List Char) :=
  (splitText (fun c => c == ';' || c == '\n') t).filter fun st => !(trimText st).isEmpty

/-- The instructions of a program's statements, in order; none where one of them cannot be read. -/
def parseStatements : List (List Char) → Option (List Instr)
  | [] => some []
  | st :: sts => do
    let i ← parseStatement st
    let is ← parseStatements sts
    return i :: is

/-- The bytes a program assembles to under an opcode assignment (R311): each statement's bytes, in order. -/
def assembleWith (oc : OpcodeMap) (t : List Char) : Option (List Byte) :=
  (parseStatements (programStatements t)).map fun is => is.flatMap (encodeWith oc)

/-- The decimal digits of a byte. -/
def decimalText (b : Byte) : List Char :=
  let digit (n : Nat) : Char := Char.ofNat ('0'.toNat + n)
  if b.toNat < 10 then [digit b.toNat]
  else if b.toNat < 100 then [digit (b.toNat / 10), digit (b.toNat % 10)]
  else [digit (b.toNat / 100), digit (b.toNat / 10 % 10), digit (b.toNat % 10)]

/-- The spelling of a register operand byte (R311). -/
def registerText (b : Byte) : List Char := 'R' :: decimalText b

/-- An instruction as a statement of R311. -/
def instrText (i : Instr) : List Char :=
  let operands : List (List Char) :=
    match i with
    | .ldi d imm => [registerText d, decimalText imm]
    | other => other.registerBytes.map registerText
  mnemonicText i.mnemonic ++
    match operands with
    | [] => []
    | [a] => ' ' :: a
    | a :: b :: _ => ' ' :: a ++ [',', ' '] ++ b

end Sys2Proof.Machine
end

