-- ==== Sys2Proof/Safety.lean ====
section
/-! DEFINITION. What the statements speak of: how a run ends (spec 70_reset_and_hazards.md R805), what a state keeps of another, and
the invariant of the machine. -/

namespace Sys2Proof.Machine

/-- The normal end of a run (R805). -/
def State.Ended (s : State) : Prop := s.run = .halted

/-- The state is a fault-stop, never a normal end (R805). -/
def State.FaultStopped (s : State) : Prop := ∃ reason fpc fop, s.run = .faulted reason fpc fop

/-- Every register but those listed holds what it held. -/
def SameRegsBut (rs : List RegIdx) (s t : State) : Prop := ∀ r, r ∉ rs → t.reg r = s.reg r

/-- Every byte of memory reads as before, but those at the addresses `p` picks. -/
def SameMemoryBut (p : Nat → Prop) (s t : State) : Prop := ∀ a, ¬ p a → t.mem.read a = s.mem.read a

/-- Every byte of memory reads as before. -/
def SameMemory (s t : State) : Prop := ∀ a, t.mem.read a = s.mem.read a

/-- The host's moves, listed and scheduled, are as before. -/
def SameHost (s t : State) : Prop := t.moves = s.moves ∧ t.turn = s.turn

/-- IR, `ie`, `ov` and the host's moves are as before. -/
def SameControl (s t : State) : Prop := t.ir = s.ir ∧ t.ie = s.ie ∧ t.ov = s.ov ∧ SameHost s t

/-- The host keeps invoking cycles: after every turn there is a later one that is a cycle (R808, weak fairness of the clock
driver). -/
def FairHost (host : HostSchedule) : Prop := ∀ n, ∃ k, host (n + k) = .cycle

/-- `k` steps under an opcode assignment and a placement of the host's moves. -/
def State.runWith (oc : OpcodeMap) (host : HostSchedule) (k : Nat) (s : State) : Host.Outcome State Fault Refusal :=
  Host.Core.run
    { State := State, Fault := Fault, Refusal := Refusal, step := fun u => u.stepWith oc host, reset := State.reset } k s

/-- An outcome with its next state changed; a stop is left as it is. -/
def mapNext (f : State → State) : Host.Outcome State Fault Refusal → Host.Outcome State Fault Refusal
  | .next t => .next (f t)
  | .fault r => .fault r
  | .refused r => .refused r

/-- The instruction the bytes at PC decode to, if they do (R306). -/
def State.instrAtPc (oc : OpcodeMap) (s : State) : Option Instr :=
  match decodeWith oc s.fetchBytes with
  | .ok (i, _) => some i
  | .error _ => none

/-- What the run state says of the rest of the state. In Halted, IR holds HLT's opcode and the byte at PC is that HLT (R408). In
Faulted, the report names the PC and the byte in IR, which is the byte at PC (R407), the reason is one an instruction can meet (R451),
and it is `UnknownOpcode` exactly when that byte is no opcode (R307, R403). -/
def State.RunConsistent (s : State) : Prop :=
  match s.run with
  | .running => True
  | .halted => s.ir = defaultOpcode .hlt ∧ s.memRead s.pc = s.ir
  | .faulted reason fpc fop =>
    fpc = s.pc ∧ fop = s.ir ∧ s.memRead s.pc = s.ir ∧ reason ≠ .aluUnsupported ∧
      (reason = .unknownOpcode ↔ lookup defaultOpcode fop = none)

/-- The invariant of the machine: memory is in its canonical form, `ov` is false (R110), and the run state fits the rest. -/
def State.Inv (s : State) : Prop := s.mem.wf ∧ s.ov = false ∧ s.RunConsistent

end Sys2Proof.Machine
end

