-- ==== Sys2Proof/Certificates/Slice0/Obligations.lean ====
section
/-! DEFINITION. The statements for the provers. `s` is the state before and `t` the state after. A register operand byte that names
register `r` is `regByte r`; a byte above 7 names none. A clause that rests on one of the spec's own decisions (D<n>) or on a choice of
the model (log <n>) says so. -/

open Sys2Proof Sys2Proof.Machine

/-! ### Encoding (30_encoding.md) -/

/-- Whatever injective opcode assignment is taken, decoding the encoding of an instruction gives that instruction, with every operand
byte, and leaves the bytes after it. -/
def Obligations.DecodeOfEncode : Prop :=
  ∀ oc : OpcodeMap, Function.Injective oc → ∀ (i : Instr) (rest : List Byte),
    decodeWith oc (encodeWith oc i ++ rest) = .ok (i, rest)

/-- Whatever opcode assignment is taken, bytes that decode are the encoding of what they decode to, followed by what is left. -/
def Obligations.EncodeOfDecode : Prop :=
  ∀ (oc : OpcodeMap) (bytes rest : List Byte) (i : Instr),
    decodeWith oc bytes = .ok (i, rest) → encodeWith oc i ++ rest = bytes

/-- An instruction cut short of its last byte does not decode: no encoding begins another. -/
def Obligations.TruncatedInstructionRefused : Prop :=
  ∀ oc : OpcodeMap, Function.Injective oc → ∀ (i : Instr) (k : Nat), k < (encodeWith oc i).length →
    decodeWith oc ((encodeWith oc i).take k) = .error .missingByte

/-- Decoding is a table lookup on the opcode byte, total on all byte values: under an injective assignment a byte is `m` exactly when it
is the opcode of `m`, it is none exactly when it is the opcode of none, and what is found fixes the instruction and how many operand
bytes it takes. -/
def Obligations.DecodeIsTableLookup : Prop :=
  ∀ oc : OpcodeMap, Function.Injective oc → ∀ b : Byte,
    (∀ m, lookup oc b = some m ↔ oc m = b) ∧ (lookup oc b = none ↔ ∀ m, oc m ≠ b) ∧
    ∀ (m : Mnemonic) (rest : List Byte), oc m = b → m.format.operandCount ≤ rest.length →
      ∃ i, decodeWith oc (b :: rest) = .ok (i, rest.drop m.format.operandCount) ∧ i.mnemonic = m

/-- Under the default assignment (decision D1, log 1) exactly thirteen byte values are opcodes. -/
def Obligations.IllegalOpcodesOfDefault : Prop :=
  ∀ b : Byte, lookup defaultOpcode b = none ↔
    b ∉ ([0x01, 0x99, 0xAA, 0xA8, 0x43, 0x42, 0x4D, 0x4C, 0x48, 0x09, 0x50, 0x9A, 0x0B] : List Byte)

/-- Words written from the spec's encodings, one of each format and family, decode to the instructions they stand for (decision D1,
log 1). -/
def Obligations.SampleWordsDecode : Prop :=
  decode [0x01] = .ok (.hlt, []) ∧
  decode [0x99, 0x03, 0xFF] = .ok (.ldi 3 0xFF, []) ∧
  decode [0xA8, 0x02, 0x03] = .ok (.add 2 3, []) ∧
  decode [0x43, 0x07, 0x01] = .ok (.prn 7, [0x01]) ∧
  decode [0x4C, 0x04] = .ok (.pop 4, []) ∧
  decode [0x9A, 0x01, 0x00] = .ok (.st 1 0, []) ∧
  decode [0x48, 0x01] = .ok (.call 1, []) ∧
  decode [0x0B] = .ok (.iret, []) ∧
  decode [0xFF] = .error .unknownOpcode

/-- The text of a well-formed instruction assembles to its encoding, under every assignment (decision D24, log 25). -/
def Obligations.AssemblyOfInstructionText : Prop :=
  ∀ (oc : OpcodeMap) (i : Instr), i.WellFormed → assembleWith oc (instrText i) = some (encodeWith oc i)

/-! ### Reset and launch (70_reset_and_hazards.md) -/

/-- The reset state: R0..R6 are 0, R7 is 0xF8, PC and IR are 0, `ie` is true, `ov` is false (decision D9, log 8), the run state is
Running, nothing has been output; no host move is listed, a field of the model's own (log 4). -/
def Obligations.ResetState : Prop :=
  (∀ r : RegIdx, State.reset.reg r = if r = 7 then 0xF8 else 0) ∧ State.reset.pc = 0x00 ∧ State.reset.ir = 0x00 ∧
    State.reset.ie = true ∧ State.reset.ov = false ∧ State.reset.run = .running ∧ State.reset.out = [] ∧
    State.reset.moves = []

/-- A launch is the reset state with memory holding the image IMAGE, every byte of it (decision D17, log 7), and it meets the
invariant. -/
def Obligations.LaunchHoldsImage : Prop :=
  ∀ image : Vector Byte 256,
    (∀ a : Fin 256, (State.launch image).mem.read a.val = image[a]) ∧ (State.launch image).Inv ∧
      { State.launch image with mem := [] } = State.reset

/-! ### The invariant -/

/-- Every step keeps the invariant: memory in its canonical form, `ov` false (decision D9, log 8), and the run state fitting the rest. In
Halted, IR holds HLT's opcode and PC is where that HLT stands (decision D8, log 15); in Faulted, IR holds the byte at PC that the report
names (decision D11, log 9), and the reason is never `AluUnsupported` (decision D7, log 16). -/
def Obligations.StepKeepsInv : Prop :=
  ∀ s t : State, s.Inv → step s = .next t → t.Inv

/-- The reset state meets the invariant, `ov` being false there by decision D9 (log 8). -/
def Obligations.ResetMeetsInv : Prop := State.reset.Inv

/-! ### The step and the cycle (40_cycle_engine.md, 60_exceptions.md) -/

/-- What a step in Running is, under every opcode assignment and every placement of the host's moves (the moves as data, and a schedule
where none is listed, are the model's choice, log 4): a cycle, a timer event, or a raised line, which is refused by name where the
platform has not wired it (decision D15, log 5). Where no move is listed the step is that of the move the schedule gives for this turn,
a line it names that is not wired counting as a cycle. -/
def Obligations.StepIsOneMove : Prop :=
  ∀ (oc : OpcodeMap) (host : HostSchedule) (s : State) (ms : List HostMove) (i : Line), s.run = .running →
    (s.setMoves (.cycle :: ms)).stepWith oc host = (s.setMoves ms).cycleWith oc ∧
    (s.setMoves (.timerEvent :: ms)).stepWith oc host = .next (s.setMoves ms).raiseTimerEvent ∧
    (s.setMoves (.raiseLine i :: ms)).stepWith oc host =
      (if lineWired i then .next ((s.setMoves ms).raiseLine i) else .refused (.lineNotWired i)) ∧
    (s.setMoves []).stepWith oc host = State.stepWith oc host
      { s with
        turn := s.turn + 1
        moves := [if ∃ j, host s.turn = .raiseLine j ∧ lineWired j = false then .cycle else host s.turn] }

/-- In Halted and in Faulted no cycle and no event occurs, whatever the host asks for (that a step then answers Host's fault is the
model's choice, log 3). -/
def Obligations.NoMoveOnceStopped : Prop :=
  ∀ (s : State) (reason : FaultReason) (fpc fop : Byte),
    step (s.setRun .halted) = .fault .halted ∧
    step (s.setRun (.faulted reason fpc fop)) = .fault (.faultStop reason fpc fop)

/-- When the host asks for a cycle, no interrupt is due and the bytes at PC decode to `i`, the step is `exec i` of the state in which IR
holds the opcode byte; nothing else is done around it, but that the host's move is taken (log 4). -/
def Obligations.StepRunsDecodedInstruction : Prop :=
  ∀ (s : State) (i : Instr) (rest : List Byte), s.run = .running → s.nextMove = .cycle →
    (s.ie = true → s.reg 6 &&& s.reg 5 = 0) → decode s.fetchBytes = .ok (i, rest) →
    step s = exec i { s.takeMove with ir := s.mem.read s.pc.toNat }

/-- When the encoding of `i` stands in memory from PC on, within 0xFF, the step of a cycle with no interrupt due is `exec i` of the
state in which IR holds the opcode of `i` and the host's move is taken (log 4). -/
def Obligations.StepRunsPlacedInstruction : Prop :=
  ∀ (s : State) (i : Instr), s.run = .running → s.nextMove = .cycle → (s.ie = true → s.reg 6 &&& s.reg 5 = 0) →
    s.pc.toNat + i.operandBytes.length ≤ 0xFF →
    (∀ (k : Nat) (b : Byte), (encode i)[k]? = some b → s.mem.read (s.pc.toNat + k) = b) →
    step s = exec i { s.takeMove with ir := defaultOpcode i.mnemonic }

/-- An undecodable opcode: the step is the fault-stop `UnknownOpcode` with the PC and the byte, and nothing but IR, the run state and
the host's moves changes (that IR keeps the byte is decision D11, log 9). -/
def Obligations.UnknownOpcodeFaultStops : Prop :=
  ∀ s : State, s.run = .running → s.nextMove = .cycle → (s.ie = true → s.reg 6 &&& s.reg 5 = 0) →
    (∀ m, defaultOpcode m ≠ s.mem.read s.pc.toNat) →
    step s = .next { s.takeMove with
      ir := s.mem.read s.pc.toNat, run := .faulted .unknownOpcode s.pc (s.mem.read s.pc.toNat) }

/-- An instruction whose operand bytes would lie beyond 0xFF: the step is the fault-stop `OperandOutOfRange` (decision D5, log 11;
IR: decision D11, log 9). -/
def Obligations.OperandBeyondTopFaultStops : Prop :=
  ∀ (s : State) (m : Mnemonic), s.run = .running → s.nextMove = .cycle → (s.ie = true → s.reg 6 &&& s.reg 5 = 0) →
    defaultOpcode m = s.mem.read s.pc.toNat → 0xFF < s.pc.toNat + m.format.operandCount →
    step s = .next { s.takeMove with
      ir := s.mem.read s.pc.toNat, run := .faulted .operandOutOfRange s.pc (s.mem.read s.pc.toNat) }

/-- The interrupt check: under every assignment, a cycle services an interrupt exactly when `ie` is true and IS & IM is not 0;
otherwise it fetches and executes. -/
def Obligations.InterruptCheckStartsCycle : Prop :=
  ∀ (oc : OpcodeMap) (s : State),
    if s.ie = true ∧ s.reg 6 &&& s.reg 5 ≠ 0 then ∃ i : Line, s.cycleWith oc = .next (s.interruptEntry i)
    else s.cycleWith oc = s.fetchExecuteWith oc

/-- The line a cycle services is the lowest-numbered one that is pending and enabled, line 0 first (bit numbering: decision D2,
log 18). -/
def Obligations.LowestLineIsServiced : Prop :=
  ∀ (oc : OpcodeMap) (s : State) (i : Line), s.ie = true → (s.reg 6 &&& s.reg 5).getLsbD i.val = true →
    (∀ j : Line, j < i → (s.reg 6 &&& s.reg 5).getLsbD j.val = false) →
    s.cycleWith oc = .next (s.interruptEntry i)

/-- A timer event sets bit 0 of IS and touches nothing else; two between two cycles have the effect of one (decision D14, log 4). -/
def Obligations.TimerEventSetsBitZero : Prop :=
  ∀ (s : State) (ms : List HostMove), s.run = .running →
    (∃ t, step (s.setMoves (.timerEvent :: ms)) = .next t ∧
      (∀ k : Fin 8, (t.reg 6).getLsbD k.val = (decide (k = 0) || (s.reg 6).getLsbD k.val)) ∧
      SameRegsBut [6] s t ∧ t.pc = s.pc ∧ t.ir = s.ir ∧ t.ie = s.ie ∧ t.ov = s.ov ∧ t.run = s.run ∧ t.out = s.out ∧
      SameMemory s t ∧ t.moves = ms ∧ t.turn = s.turn) ∧
    ∃ t, step (s.setMoves (.timerEvent :: .timerEvent :: ms)) = .next t ∧
      step t = step (s.setMoves (.timerEvent :: ms))

/-- A source on a further line sets that line's bit of IS and touches nothing else, where the platform has wired that line; where it
has not, there is no such move (decision D15, log 5). Line 0 is never one of these lines. -/
def Obligations.RaisedLineSetsItsBit : Prop :=
  ∀ (s : State) (i : Line) (ms : List HostMove), s.run = .running →
    if i ≠ 0 ∧ Config.extraIrqLine i = true then
      ∃ t, step (s.setMoves (.raiseLine i :: ms)) = .next t ∧
        (∀ k : Fin 8, (t.reg 6).getLsbD k.val = (decide (k = i) || (s.reg 6).getLsbD k.val)) ∧
        SameRegsBut [6] s t ∧ t.pc = s.pc ∧ t.ir = s.ir ∧ t.ie = s.ie ∧ t.ov = s.ov ∧ t.run = s.run ∧ t.out = s.out ∧
        SameMemory s t ∧ t.moves = ms ∧ t.turn = s.turn
    else step (s.setMoves (.raiseLine i :: ms)) = .refused (.lineNotWired i)

/-- In state Running a cycle always has a next state: no operand, memory byte or register value stops it. -/
def Obligations.RunningCycleNeverStuck : Prop :=
  ∀ (oc : OpcodeMap) (s : State), ∃ t, s.cycleWith oc = .next t

/-! ### What each instruction does: its result, and everything it leaves unchanged -/

/-- LDI Rd, imm8 in range: Rd holds the immediate, PC advances by 3. -/
def Obligations.LdiResult : Prop :=
  ∀ (s : State) (d : RegIdx) (imm : Byte), s.pc.toNat ≤ 0xFC →
    ∃ t, exec (.ldi (regByte d) imm) s = .next t ∧ t.reg d = imm ∧ SameRegsBut [d] s t ∧
      t.pc.toNat = s.pc.toNat + 3 ∧ t.run = s.run ∧ t.out = s.out ∧ SameMemory s t ∧ SameControl s t

/-- ADD Ra, Rb in range: Ra holds the sum modulo 256, PC advances by 3. -/
def Obligations.AddResult : Prop :=
  ∀ (s : State) (a b : RegIdx), s.pc.toNat ≤ 0xFC →
    ∃ t, exec (.add (regByte a) (regByte b)) s = .next t ∧
      (t.reg a).toNat = ((s.reg a).toNat + (s.reg b).toNat) % 256 ∧ SameRegsBut [a] s t ∧
      t.pc.toNat = s.pc.toNat + 3 ∧ t.run = s.run ∧ t.out = s.out ∧ SameMemory s t ∧ SameControl s t

/-- MUL Ra, Rb in range: Ra holds the product modulo 256, PC advances by 3. -/
def Obligations.MulResult : Prop :=
  ∀ (s : State) (a b : RegIdx), s.pc.toNat ≤ 0xFC →
    ∃ t, exec (.mul (regByte a) (regByte b)) s = .next t ∧
      (t.reg a).toNat = ((s.reg a).toNat * (s.reg b).toNat) % 256 ∧ SameRegsBut [a] s t ∧
      t.pc.toNat = s.pc.toNat + 3 ∧ t.run = s.run ∧ t.out = s.out ∧ SameMemory s t ∧ SameControl s t

/-- PRN Ra in range: one event `Dec` of Ra's value is appended, PC advances by 2. -/
def Obligations.PrnResult : Prop :=
  ∀ (s : State) (a : RegIdx), s.pc.toNat ≤ 0xFD →
    ∃ t, exec (.prn (regByte a)) s = .next t ∧ t.out = s.out ++ [.dec (s.reg a)] ∧ SameRegsBut [] s t ∧
      t.pc.toNat = s.pc.toNat + 2 ∧ t.run = s.run ∧ SameMemory s t ∧ SameControl s t

/-- PRA Ra in range: one event `Chr` of Ra's value is appended, PC advances by 2. -/
def Obligations.PraResult : Prop :=
  ∀ (s : State) (a : RegIdx), s.pc.toNat ≤ 0xFD →
    ∃ t, exec (.pra (regByte a)) s = .next t ∧ t.out = s.out ++ [.chr (s.reg a)] ∧ SameRegsBut [] s t ∧
      t.pc.toNat = s.pc.toNat + 2 ∧ t.run = s.run ∧ SameMemory s t ∧ SameControl s t

/-- PUSH Ra in range: R7 is lowered by one modulo 256 (decision D12, log 14) and the byte where it then points is Ra's value, for R7
itself the lowered value (decision D13, log 13); PC advances by 2. -/
def Obligations.PushResult : Prop :=
  ∀ (s : State) (a : RegIdx), s.pc.toNat ≤ 0xFD →
    ∃ t, exec (.push (regByte a)) s = .next t ∧ (t.reg 7).toNat = ((s.reg 7).toNat + 255) % 256 ∧
      t.mem.read (t.reg 7).toNat = (if a = 7 then t.reg 7 else s.reg a) ∧
      SameMemoryBut (fun k => k = (s.reg 7 - 1).toNat) s t ∧ SameRegsBut [7] s t ∧
      t.pc.toNat = s.pc.toNat + 2 ∧ t.run = s.run ∧ t.out = s.out ∧ SameControl s t

/-- POP Rd in range: Rd holds the byte where R7 pointed and R7 is raised by one modulo 256 (decision D12, log 14); for d = 7 it ends as
that byte plus one (decision D13, log 13). PC advances by 2, memory is unchanged. -/
def Obligations.PopResult : Prop :=
  ∀ (s : State) (d : RegIdx), s.pc.toNat ≤ 0xFD →
    ∃ t, exec (.pop (regByte d)) s = .next t ∧
      (if d = 7 then (t.reg 7).toNat = ((s.mem.read (s.reg 7).toNat).toNat + 1) % 256
       else t.reg d = s.mem.read (s.reg 7).toNat ∧ (t.reg 7).toNat = ((s.reg 7).toNat + 1) % 256) ∧
      SameRegsBut [d, 7] s t ∧ t.pc.toNat = s.pc.toNat + 2 ∧ t.run = s.run ∧ t.out = s.out ∧ SameMemory s t ∧
      SameControl s t

/-- ST Ra, Rb in range: the byte at the address in Ra is Rb's value, every other byte and every register is unchanged, PC advances
by 3. -/
def Obligations.StResult : Prop :=
  ∀ (s : State) (a b : RegIdx), s.pc.toNat ≤ 0xFC →
    ∃ t, exec (.st (regByte a) (regByte b)) s = .next t ∧ t.mem.read (s.reg a).toNat = s.reg b ∧
      SameMemoryBut (fun k => k = (s.reg a).toNat) s t ∧ SameRegsBut [] s t ∧
      t.pc.toNat = s.pc.toNat + 3 ∧ t.run = s.run ∧ t.out = s.out ∧ SameControl s t

/-- JMP Ra whose operand byte is in range: PC holds Ra's value and nothing else changes; a JMP at 0xFE is legal. -/
def Obligations.JmpResult : Prop :=
  ∀ (s : State) (a : RegIdx), s.pc.toNat ≤ 0xFE →
    exec (.jmp (regByte a)) s = .next { s with pc := s.reg a }

/-- CALL Ra in range: the return address PC + 2 is pushed, and PC holds Ra's value as it is after the push, so for R7 the lowered
stack pointer (decisions D12, D13, log 13, log 14). -/
def Obligations.CallResult : Prop :=
  ∀ (s : State) (a : RegIdx), s.pc.toNat ≤ 0xFD →
    ∃ t, exec (.call (regByte a)) s = .next t ∧ (t.reg 7).toNat = ((s.reg 7).toNat + 255) % 256 ∧
      (t.mem.read (t.reg 7).toNat).toNat = s.pc.toNat + 2 ∧ t.pc = (if a = 7 then t.reg 7 else s.reg a) ∧
      SameMemoryBut (fun k => k = (s.reg 7 - 1).toNat) s t ∧ SameRegsBut [7] s t ∧
      t.run = s.run ∧ t.out = s.out ∧ SameControl s t

/-- RET: PC holds the byte where R7 pointed and R7 is raised by one modulo 256 (decision D12, log 14); nothing else changes. -/
def Obligations.RetResult : Prop :=
  ∀ s : State, ∃ t, exec .ret s = .next t ∧ t.pc = s.mem.read (s.reg 7).toNat ∧
    (t.reg 7).toNat = ((s.reg 7).toNat + 1) % 256 ∧ SameRegsBut [7] s t ∧ t.run = s.run ∧ t.out = s.out ∧
    SameMemory s t ∧ SameControl s t

/-- IRET: R7 is popped first and raised, then R6..R0 and PC are popped from the bytes above, and `ie` is set; memory and everything
else is unchanged (conflicts C1, C2, decisions D12, D25, log 14, log 20). -/
def Obligations.IretResult : Prop :=
  ∀ s : State, ∃ t, exec .iret s = .next t ∧
    (∀ r : RegIdx, r ≠ 7 →
      t.reg r = s.memRead (s.memRead (s.reg 7) + 1 + BitVec.ofNat 8 (6 - r.val))) ∧
    t.pc = s.memRead (s.memRead (s.reg 7) + 8) ∧ t.reg 7 = s.memRead (s.reg 7) + 9 ∧ t.ie = true ∧
    t.ir = s.ir ∧ t.ov = s.ov ∧ t.run = s.run ∧ t.out = s.out ∧ SameMemory s t ∧ SameHost s t

/-- HLT: the run state is Halted and nothing else changes, PC included (decision D8, log 15). -/
def Obligations.HltResult : Prop :=
  ∀ s : State, exec .hlt s = .next { s with run := .halted }

/-! ### Frames, whatever the operand bytes and the PC -/

/-- LDI, ADD and MUL leave every register but the one their first operand names, memory, the output and the control state. -/
def Obligations.FrameRegisterDestination : Prop :=
  ∀ (s t : State) (d b : Byte),
    exec (.ldi d b) s = .next t ∨ exec (.add d b) s = .next t ∨ exec (.mul d b) s = .next t →
    (∀ r : RegIdx, regByte r ≠ d → t.reg r = s.reg r) ∧ SameMemory s t ∧ t.out = s.out ∧ SameControl s t

/-- PRN and PRA leave every register, memory and the control state, and what was output before. -/
def Obligations.FrameOutput : Prop :=
  ∀ (s t : State) (a : Byte), exec (.prn a) s = .next t ∨ exec (.pra a) s = .next t →
    SameRegsBut [] s t ∧ SameMemory s t ∧ SameControl s t ∧ ∃ es, t.out = s.out ++ es ∧ es.length ≤ 1

/-- ST leaves every register, the output, the control state, and every byte but the one at the address its first operand's register
holds. -/
def Obligations.FrameStore : Prop :=
  ∀ (s t : State) (a b : Byte), exec (.st a b) s = .next t →
    SameRegsBut [] s t ∧ t.out = s.out ∧ SameControl s t ∧
      SameMemoryBut (fun k => ∃ r : RegIdx, a = regByte r ∧ k = (s.reg r).toNat) s t

/-- PUSH and CALL leave every register but R7, the output, the control state, and every byte but the one at R7 - 1. -/
def Obligations.FrameStackWrite : Prop :=
  ∀ (s t : State) (a : Byte), exec (.push a) s = .next t ∨ exec (.call a) s = .next t →
    SameRegsBut [7] s t ∧ t.out = s.out ∧ SameControl s t ∧ SameMemoryBut (fun k => k = (s.reg 7 - 1).toNat) s t

/-- POP leaves every register but R7 and the one its operand names, memory, the output and the control state; JMP leaves every
register, memory, the output and the control state. -/
def Obligations.FramePopAndJump : Prop :=
  ∀ (s t : State) (a : Byte),
    (exec (.pop a) s = .next t →
      (∀ r : RegIdx, r ≠ 7 → regByte r ≠ a → t.reg r = s.reg r) ∧ SameMemory s t ∧ t.out = s.out ∧ SameControl s t) ∧
    (exec (.jmp a) s = .next t → SameRegsBut [] s t ∧ SameMemory s t ∧ t.out = s.out ∧ SameControl s t)

/-! ### Faults (40_cycle_engine.md, 60_exceptions.md) -/

/-- The checks made before any write, in their order: operand bytes beyond 0xFF, then a register operand byte above 7, then a
successor or return address beyond 0xFF; an instruction that passes them does not fault. A fault is the fault-stop and changes nothing
but the run state (decisions D4, D5, D6, D26, log 10, log 11, log 12, log 21). -/
def Obligations.OperandChecksInOrder : Prop :=
  ∀ (i : Instr) (s : State),
    if 0xFF < s.pc.toNat + i.operandBytes.length then
      exec i s = .next { s with run := .faulted .operandOutOfRange s.pc s.ir }
    else if ∃ b ∈ i.registerBytes, 7 < b.toNat then
      exec i s = .next { s with run := .faulted .badRegister s.pc s.ir }
    else if i.mnemonic ∈ ([.ldi, .mul, .add, .st, .prn, .pra, .push, .pop, .call] : List Mnemonic) ∧
        0xFF < s.pc.toNat + i.operandBytes.length + 1 then
      exec i s = .next { s with run := .faulted .pcOverflow s.pc s.ir }
    else ∃ t, exec i s = .next t ∧ t.run = if i = .hlt then .halted else s.run

/-- An instruction either makes all its writes or none: where it changes the run state, it changes nothing else. For HLT that says that
PC stays at the HLT, which is decision D8 (log 15). -/
def Obligations.RunStateChangeWritesNothingElse : Prop :=
  ∀ (i : Instr) (s t : State), exec i s = .next t → t.run ≠ s.run → t = { s with run := t.run }

/-- The ALU: ADD and MUL give the exact sum and product modulo 256, and any other selector is the fault `AluUnsupported`. -/
def Obligations.AluFunction : Prop :=
  ∀ a b : Byte,
    (∃ v, alu .add a b = .ok v ∧ v.toNat = (a.toNat + b.toNat) % 256) ∧
    (∃ v, alu .mul a b = .ok v ∧ v.toNat = (a.toNat * b.toNat) % 256) ∧
    ∀ sel, sel ≠ .add → sel ≠ .mul → alu sel a b = .error .aluUnsupported

/-! ### Interrupts (60_exceptions.md) -/

/-- Interrupt entry on line `i`, S being R7 before it: bit `i` of IS and `ie` are cleared, the nine bytes below S hold PC, R0, ..., R7
downward (R6 already cleared, R7 the address of its own slot), R7 ends nine lower, and everything else but PC is unchanged
(decisions D10, D12, log 9, log 14). -/
def Obligations.InterruptEntryFrame : Prop :=
  ∀ (s : State) (i : Line), ∃ t, t = s.interruptEntry i ∧
    t.memRead (s.reg 7 - 1) = s.pc ∧
    (∀ r : RegIdx, t.memRead (s.reg 7 - 2 - BitVec.ofNat 8 r.val) =
      if r = 7 then s.reg 7 - 9 else if r = 6 then t.reg 6 else s.reg r) ∧
    (∀ k : Fin 8, (t.reg 6).getLsbD k.val = ((s.reg 6).getLsbD k.val && decide (k ≠ i))) ∧
    t.reg 7 = s.reg 7 - 9 ∧ SameRegsBut [6, 7] s t ∧ t.ie = false ∧
    SameMemoryBut (fun a => ∃ k : Fin 9, a = (s.reg 7 - 1 - BitVec.ofNat 8 k.val).toNat) s t ∧
    t.ir = s.ir ∧ t.ov = s.ov ∧ t.run = s.run ∧ t.out = s.out ∧ SameHost s t

/-- The handler's address on line `i` is the byte at 0xF8 + i, read at entry, that is after the frame is pushed; where the frame does
not reach that entry it is the byte the table held before. -/
def Obligations.VectorLookup : Prop :=
  ∀ (s : State) (i : Line),
    (s.interruptEntry i).pc = (s.interruptEntry i).mem.read (0xF8 + i.val) ∧
    ((∀ k : Fin 9, 0xF8 + i.val ≠ (s.reg 7 - 1 - BitVec.ofNat 8 k.val).toNat) →
      (s.interruptEntry i).pc = s.mem.read (0xF8 + i.val))

/-- IRET undoes interrupt entry, whatever the handler did, as long as R7 and the nine bytes of the frame are as entry left them: every
register and PC hold what they held, but R6 with the serviced bit clear (conflict C3), and `ie` is true. -/
def Obligations.IretUndoesEntry : Prop :=
  ∀ (s t : State) (i : Line), t.reg 7 = s.reg 7 - 9 →
    (∀ k : Fin 9, t.memRead (s.reg 7 - 1 - BitVec.ofNat 8 k.val) =
      (s.interruptEntry i).memRead (s.reg 7 - 1 - BitVec.ofNat 8 k.val)) →
    ∃ u, exec .iret t = .next u ∧ u.pc = s.pc ∧ SameRegsBut [6] s u ∧ u.reg 6 = (s.interruptEntry i).reg 6 ∧
      u.ie = true ∧ SameMemory t u ∧ u.ir = t.ir ∧ u.ov = t.ov ∧ u.run = t.run ∧ u.out = t.out ∧ SameHost t u

/-! ### Round trips (95_test_vectors.md E3, E5) -/

/-- PUSH Rn and then POP Rm, n and m other than 7 (conflict C8): Rm holds what Rn held, R7 is back, every other register is unchanged,
whatever R7 was. -/
def Obligations.PushThenPop : Prop :=
  ∀ (s : State) (n m : RegIdx), n ≠ 7 → m ≠ 7 → s.pc.toNat ≤ 0xFB →
    ∃ t u, exec (.push (regByte n)) s = .next t ∧ exec (.pop (regByte m)) t = .next u ∧ u.reg m = s.reg n ∧
      u.reg 7 = s.reg 7 ∧ SameRegsBut [m] s u ∧ u.pc.toNat = s.pc.toNat + 4

/-- CALL Ra and, once the callee has R7 and the pushed byte as CALL left them, RET: PC is the address of the CALL plus 2 and R7 is
back. -/
def Obligations.CallThenRet : Prop :=
  ∀ (s t v : State) (a : RegIdx), s.pc.toNat ≤ 0xFD → exec (.call (regByte a)) s = .next t → v.reg 7 = t.reg 7 →
    v.memRead (t.reg 7) = t.memRead (t.reg 7) →
    ∃ u, exec .ret v = .next u ∧ u.pc.toNat = s.pc.toNat + 2 ∧ u.reg 7 = s.reg 7

/-! ### Whole-machine rules -/

/-- `ie` starts true. Its writers: interrupt entry sets it false and IRET sets it true; a step, whatever its move and the fault-stop of a
cycle included, leaves it as it was unless the step is a cycle that services an interrupt (then it is false) or one that runs IRET (then
it is true). Its only reader is the interrupt check: no instruction, no fetch (the fault-stop of bytes that do not decode included), no
entry and no event depends on it, and neither does a step in which nothing is pending and enabled or whose move is no cycle. -/
def Obligations.IeWritersAndReaders : Prop :=
  State.reset.ie = true ∧
  (∀ (s : State) (i : Line), (s.interruptEntry i).ie = false ∧ (s.raiseLine i).ie = s.ie ∧ s.raiseTimerEvent.ie = s.ie) ∧
  (∀ (i : Instr) (s t : State), exec i s = .next t → t.ie = if i = .iret then true else s.ie) ∧
  (∀ s t : State, step s = .next t →
    t.ie =
      if s.nextMove = .cycle then
        if s.ie = true ∧ s.reg 6 &&& s.reg 5 ≠ 0 then false
        else if s.instrAtPc defaultOpcode = some .iret then true
        else s.ie
      else s.ie) ∧
  (∀ (i : Instr) (s : State) (b : Bool),
    exec i (s.setIe b) = mapNext (fun t => if i = .iret then t else t.setIe b) (exec i s)) ∧
  (∀ (oc : OpcodeMap) (s : State) (b : Bool), (s.setIe b).fetchExecuteWith oc =
    mapNext (fun t => if s.instrAtPc oc = some .iret then t else t.setIe b) (s.fetchExecuteWith oc)) ∧
  (∀ (s : State) (b : Bool) (i : Line), (s.setIe b).interruptEntry i = s.interruptEntry i ∧
    (s.setIe b).raiseTimerEvent = s.raiseTimerEvent.setIe b ∧ (s.setIe b).raiseLine i = (s.raiseLine i).setIe b) ∧
  ∀ (s : State) (b : Bool), s.reg 6 &&& s.reg 5 = 0 ∨ s.nextMove ≠ .cycle →
    step (s.setIe b) = mapNext
      (fun t => if s.nextMove = .cycle ∧ s.instrAtPc defaultOpcode = some .iret then t else t.setIe b) (step s)

/-- `ov` is inert: no step writes it and no step depends on it (decision D9, log 8). -/
def Obligations.OverflowIsInert : Prop :=
  ∀ (s : State) (b : Bool), step { s with ov := b } = mapNext (fun t => { t with ov := b }) (step s)

/-- Nothing in the CORE reads the output trace, and it only grows: a step with more output before it does the same (decision D16,
log 19). -/
def Obligations.OutputIsNotRead : Prop :=
  ∀ (s : State) (es : List OutEvent),
    step { s with out := es ++ s.out } = mapNext (fun t => { t with out := es ++ t.out }) (step s)

/-- IR is not observable: a cycle does not depend on what IR held, and an interrupt service passes it on unwritten (decision D10,
log 9). -/
def Obligations.IrIsNotObserved : Prop :=
  ∀ (oc : OpcodeMap) (s : State) (v : Byte),
    if s.ie = true ∧ s.reg 6 &&& s.reg 5 ≠ 0 then
      (s.setIr v).cycleWith oc = mapNext (fun t => t.setIr v) (s.cycleWith oc)
    else (s.setIr v).cycleWith oc = s.cycleWith oc

/-- The Interrupt Mask changes only in a cycle that runs an instruction which names R5 as its destination, or IRET: not by interrupt
entry, not by an event. -/
def Obligations.MaskWriters : Prop :=
  ∀ s t : State, step s = .next t → t.reg 5 ≠ s.reg 5 →
    s.nextMove = .cycle ∧ (s.ie = true → s.reg 6 &&& s.reg 5 = 0) ∧ ∃ i rest, decode s.fetchBytes = .ok (i, rest) ∧
      (i = .iret ∨ (i.mnemonic ∈ ([.ldi, .mul, .add, .pop] : List Mnemonic) ∧ i.registerBytes.head? = some 5))

/-- Pending bits stay latched: the Interrupt Status changes only by the entry that is due, by an event, or in a cycle that runs an
instruction which names R6 as its destination, or IRET. -/
def Obligations.StatusWriters : Prop :=
  ∀ s t : State, step s = .next t → t.reg 6 ≠ s.reg 6 →
    (s.nextMove = .cycle ∧ s.ie = true ∧ s.reg 6 &&& s.reg 5 ≠ 0) ∨
    s.nextMove = .timerEvent ∨ (∃ i, s.nextMove = .raiseLine i) ∨
    s.nextMove = .cycle ∧ (s.ie = true → s.reg 6 &&& s.reg 5 = 0) ∧ ∃ i rest, decode s.fetchBytes = .ok (i, rest) ∧
      (i = .iret ∨ (i.mnemonic ∈ ([.ldi, .mul, .add, .pop] : List Mnemonic) ∧ i.registerBytes.head? = some 6))

/-- Memory is written only in a cycle, by interrupt entry in the nine bytes below R7, or by PUSH or CALL in the one below R7, or by ST at
the address its first register holds; the addresses below R7 are modulo 256 (decision D12, log 14). -/
def Obligations.MemoryWriters : Prop :=
  ∀ (s t : State) (a : Nat), step s = .next t → t.mem.read a ≠ s.mem.read a →
    s.nextMove = .cycle ∧
    if s.ie = true ∧ s.reg 6 &&& s.reg 5 ≠ 0 then ∃ k : Fin 9, a = (s.reg 7 - 1 - BitVec.ofNat 8 k.val).toNat
    else ∃ i rest, decode s.fetchBytes = .ok (i, rest) ∧
      ((∃ x, i = .push x ∧ a = (s.reg 7 - 1).toNat) ∨ (∃ x, i = .call x ∧ a = (s.reg 7 - 1).toNat) ∨
        ∃ (r : RegIdx) (y : Byte), i = .st (regByte r) y ∧ a = (s.reg r).toNat)

/-- A step outputs nothing, or one event (decision D16, log 19), and then it is a cycle that services no interrupt and runs a PRN or PRA of
that register's value. -/
def Obligations.OutputWriters : Prop :=
  ∀ s t : State, step s = .next t →
    t.out = s.out ∨ s.nextMove = .cycle ∧ (s.ie = true → s.reg 6 &&& s.reg 5 = 0) ∧ ∃ (r : RegIdx) (rest : List Byte),
      (decode s.fetchBytes = .ok (.prn (regByte r), rest) ∧ t.out = s.out ++ [.dec (s.reg r)]) ∨
      (decode s.fetchBytes = .ok (.pra (regByte r), rest) ∧ t.out = s.out ++ [.chr (s.reg r)])

/-- Where an instruction that completes leaves PC: the default advance of its length, or the address it sets directly, with no default
advance besides. HLT leaves PC (decision D8, log 15); CALL R7 goes to the lowered R7 (decision D13, log 13); the address popped from is
modulo 256 (decision D12, log 14); IRET pops whether or not a handler runs (decision D25, log 20). -/
def Obligations.PcAfterInstruction : Prop :=
  ∀ (i : Instr) (s t : State), s.run = .running → exec i s = .next t → (t.run = .running ∨ t.run = .halted) →
    match i with
    | .ldi _ _ | .mul _ _ | .add _ _ | .st _ _ => t.pc.toNat = s.pc.toNat + 3
    | .prn _ | .pra _ | .push _ | .pop _ => t.pc.toNat = s.pc.toNat + 2
    | .jmp a | .call a => ∃ r : RegIdx, a = regByte r ∧ t.pc = t.reg r
    | .ret | .iret => t.pc = s.memRead (t.reg 7 - 1)
    | .hlt => t.pc = s.pc

/-- How the run state changes: a step from Running stays Running, or executes HLT and becomes Halted, or becomes Faulted with the PC and
the byte at PC; in the last two nothing else changes but IR, which holds that byte (decision D11, log 9), and the host's moves. PC is unchanged in
Halted too, which is decision D8 (log 15). -/
def Obligations.RunStateTransitions : Prop :=
  ∀ s t : State, step s = .next t →
    s.run = .running ∧
    (t.run = .running ∨
      s.nextMove = .cycle ∧
        (((∃ rest, decode s.fetchBytes = .ok (.hlt, rest)) ∧
          t = { s.takeMove with ir := s.memRead s.pc, run := .halted }) ∨
        ∃ reason, t = { s.takeMove with ir := s.memRead s.pc, run := .faulted reason s.pc (s.memRead s.pc) }))

/-! ### Progress (70_reset_and_hazards.md R808) -/

/-- The CORE makes progress only when the host invokes a cycle: under every opcode assignment and every placement of the host's moves, a
step that is no cycle sets bits of IS and changes nothing else but the host's moves; and in Running a step that is a cycle always has a
next state. -/
def Obligations.OnlyCyclesMakeProgress : Prop :=
  ∀ (oc : OpcodeMap) (host : HostSchedule) (s : State),
    (∀ t, s.stepWith oc host = .next t → s.nextMoveWith host ≠ .cycle →
      (∃ b : Byte, t.reg 6 = s.reg 6 ||| b) ∧ SameRegsBut [6] s t ∧ t.pc = s.pc ∧ t.ir = s.ir ∧ t.ie = s.ie ∧
        t.ov = s.ov ∧ t.run = s.run ∧ t.out = s.out ∧ SameMemory s t) ∧
    (s.run = .running → s.nextMoveWith host = .cycle → ∃ t, s.stepWith oc host = .next t)

/-- Where the host keeps invoking cycles (weak fairness of the clock driver), the CORE goes on: under every opcode assignment and every
placement of events, endless ones included, in which after every turn a cycle comes again, a running machine reaches a cycle after
finitely many steps, each of them an event that sets bits of IS and changes nothing else. Of the moves that are listed outright (log 4)
each line is one the platform has wired (log 5). -/
def Obligations.FairHostReachesCycle : Prop :=
  ∀ (oc : OpcodeMap) (host : HostSchedule) (s : State), FairHost host → s.run = .running →
    (∀ i, .raiseLine i ∈ s.moves → lineWired i = true) →
    ∃ (k : Nat) (t u : State), s.runWith oc host k = .next t ∧ t.nextMoveWith host = .cycle ∧ t.stepWith oc host = .next u ∧
      (∃ b : Byte, t.reg 6 = s.reg 6 ||| b) ∧ SameRegsBut [6] s t ∧ t.pc = s.pc ∧ t.ir = s.ir ∧ t.ie = s.ie ∧ t.ov = s.ov ∧
      t.run = s.run ∧ t.out = s.out ∧ SameMemory s t
end

