-- ==== Sys2Proof/Laws/Decode.lean ====
section
/-! SUPPORT. What the opcode lookup and the operand bytes answer (spec 30_encoding.md R305, R306, R301). -/

namespace Sys2Proof

theorem mem_all (m : Mnemonic) : m ∈ Mnemonic.all := by cases m <;> decide

/-- The default assignment is injective (R305). -/
theorem defaultOpcode_injective : Function.Injective defaultOpcode := by
  intro m n h
  cases m <;> cases n <;> first | rfl | exact absurd h (by decide)

/-- A byte that is looked up is the opcode of what is found (R306). -/
theorem opcode_of_lookup {oc : OpcodeMap} {b : Byte} {m : Mnemonic} (h : lookup oc b = some m) : oc m = b := by
  simpa using List.find?_some h

/-- Under an injective assignment an opcode is looked up to its own mnemonic (R306). -/
theorem lookup_opcode {oc : OpcodeMap} (hoc : Function.Injective oc) (m : Mnemonic) : lookup oc (oc m) = some m := by
  cases h : lookup oc (oc m) with
  | none =>
    have := List.find?_eq_none.mp h m (mem_all m)
    simp at this
  | some n => rw [hoc (opcode_of_lookup h)]

/-- A byte is no opcode exactly when it is the opcode of no mnemonic (R307). -/
theorem lookup_none {oc : OpcodeMap} {b : Byte} : lookup oc b = none ↔ ∀ m, oc m ≠ b := by
  simp [lookup, mem_all]

/-- What the operand bytes answer: the instruction of the mnemonic whose operand bytes stood first. -/
theorem takeOperands_ok {m : Mnemonic} {bs rest : List Byte} {i : Instr}
    (h : takeOperands m m.format bs = .ok (i, rest)) : i.mnemonic = m ∧ bs = i.operandBytes ++ rest := by
  rcases bs with _ | ⟨b1, _ | ⟨b2, bs⟩⟩ <;> cases m <;> cases h <;> exact ⟨rfl, rfl⟩

end Sys2Proof
end

