-- ==== Sys2Proof/Laws/State.lean ====
section
/-! SUPPORT. One lemma per field per update of the state: no proof unfolds a record update. -/

namespace Sys2Proof.Machine

/-! ### The primitive updates -/

@[simp] theorem regs_setReg (s : State) (r : RegIdx) (v : Byte) : (s.setReg r v).regs = s.regs.set r.val v r.isLt := rfl
@[simp] theorem pc_setReg (s : State) (r : RegIdx) (v : Byte) : (s.setReg r v).pc = s.pc := rfl
@[simp] theorem ir_setReg (s : State) (r : RegIdx) (v : Byte) : (s.setReg r v).ir = s.ir := rfl
@[simp] theorem ie_setReg (s : State) (r : RegIdx) (v : Byte) : (s.setReg r v).ie = s.ie := rfl
@[simp] theorem ov_setReg (s : State) (r : RegIdx) (v : Byte) : (s.setReg r v).ov = s.ov := rfl
@[simp] theorem run_setReg (s : State) (r : RegIdx) (v : Byte) : (s.setReg r v).run = s.run := rfl
@[simp] theorem out_setReg (s : State) (r : RegIdx) (v : Byte) : (s.setReg r v).out = s.out := rfl
@[simp] theorem mem_setReg (s : State) (r : RegIdx) (v : Byte) : (s.setReg r v).mem = s.mem := rfl
@[simp] theorem moves_setReg (s : State) (r : RegIdx) (v : Byte) : (s.setReg r v).moves = s.moves := rfl
@[simp] theorem turn_setReg (s : State) (r : RegIdx) (v : Byte) : (s.setReg r v).turn = s.turn := rfl
@[simp] theorem memRead_setReg (s : State) (r : RegIdx) (v : Byte) (k : Byte) : (s.setReg r v).memRead k = s.memRead k := rfl

@[simp] theorem regs_setPc (s : State) (v : Byte) : (s.setPc v).regs = s.regs := rfl
@[simp] theorem pc_setPc (s : State) (v : Byte) : (s.setPc v).pc = v := rfl
@[simp] theorem ir_setPc (s : State) (v : Byte) : (s.setPc v).ir = s.ir := rfl
@[simp] theorem ie_setPc (s : State) (v : Byte) : (s.setPc v).ie = s.ie := rfl
@[simp] theorem ov_setPc (s : State) (v : Byte) : (s.setPc v).ov = s.ov := rfl
@[simp] theorem run_setPc (s : State) (v : Byte) : (s.setPc v).run = s.run := rfl
@[simp] theorem out_setPc (s : State) (v : Byte) : (s.setPc v).out = s.out := rfl
@[simp] theorem mem_setPc (s : State) (v : Byte) : (s.setPc v).mem = s.mem := rfl
@[simp] theorem moves_setPc (s : State) (v : Byte) : (s.setPc v).moves = s.moves := rfl
@[simp] theorem turn_setPc (s : State) (v : Byte) : (s.setPc v).turn = s.turn := rfl
@[simp] theorem reg_setPc (s : State) (v : Byte) (q : RegIdx) : (s.setPc v).reg q = s.reg q := rfl
@[simp] theorem memRead_setPc (s : State) (v : Byte) (k : Byte) : (s.setPc v).memRead k = s.memRead k := rfl

@[simp] theorem regs_setIr (s : State) (v : Byte) : (s.setIr v).regs = s.regs := rfl
@[simp] theorem pc_setIr (s : State) (v : Byte) : (s.setIr v).pc = s.pc := rfl
@[simp] theorem ir_setIr (s : State) (v : Byte) : (s.setIr v).ir = v := rfl
@[simp] theorem ie_setIr (s : State) (v : Byte) : (s.setIr v).ie = s.ie := rfl
@[simp] theorem ov_setIr (s : State) (v : Byte) : (s.setIr v).ov = s.ov := rfl
@[simp] theorem run_setIr (s : State) (v : Byte) : (s.setIr v).run = s.run := rfl
@[simp] theorem out_setIr (s : State) (v : Byte) : (s.setIr v).out = s.out := rfl
@[simp] theorem mem_setIr (s : State) (v : Byte) : (s.setIr v).mem = s.mem := rfl
@[simp] theorem moves_setIr (s : State) (v : Byte) : (s.setIr v).moves = s.moves := rfl
@[simp] theorem turn_setIr (s : State) (v : Byte) : (s.setIr v).turn = s.turn := rfl
@[simp] theorem reg_setIr (s : State) (v : Byte) (q : RegIdx) : (s.setIr v).reg q = s.reg q := rfl
@[simp] theorem memRead_setIr (s : State) (v : Byte) (k : Byte) : (s.setIr v).memRead k = s.memRead k := rfl

@[simp] theorem regs_setIe (s : State) (b : Bool) : (s.setIe b).regs = s.regs := rfl
@[simp] theorem pc_setIe (s : State) (b : Bool) : (s.setIe b).pc = s.pc := rfl
@[simp] theorem ir_setIe (s : State) (b : Bool) : (s.setIe b).ir = s.ir := rfl
@[simp] theorem ie_setIe (s : State) (b : Bool) : (s.setIe b).ie = b := rfl
@[simp] theorem ov_setIe (s : State) (b : Bool) : (s.setIe b).ov = s.ov := rfl
@[simp] theorem run_setIe (s : State) (b : Bool) : (s.setIe b).run = s.run := rfl
@[simp] theorem out_setIe (s : State) (b : Bool) : (s.setIe b).out = s.out := rfl
@[simp] theorem mem_setIe (s : State) (b : Bool) : (s.setIe b).mem = s.mem := rfl
@[simp] theorem moves_setIe (s : State) (b : Bool) : (s.setIe b).moves = s.moves := rfl
@[simp] theorem turn_setIe (s : State) (b : Bool) : (s.setIe b).turn = s.turn := rfl
@[simp] theorem reg_setIe (s : State) (b : Bool) (q : RegIdx) : (s.setIe b).reg q = s.reg q := rfl
@[simp] theorem memRead_setIe (s : State) (b : Bool) (k : Byte) : (s.setIe b).memRead k = s.memRead k := rfl

@[simp] theorem regs_setRun (s : State) (r : RunState) : (s.setRun r).regs = s.regs := rfl
@[simp] theorem pc_setRun (s : State) (r : RunState) : (s.setRun r).pc = s.pc := rfl
@[simp] theorem ir_setRun (s : State) (r : RunState) : (s.setRun r).ir = s.ir := rfl
@[simp] theorem ie_setRun (s : State) (r : RunState) : (s.setRun r).ie = s.ie := rfl
@[simp] theorem ov_setRun (s : State) (r : RunState) : (s.setRun r).ov = s.ov := rfl
@[simp] theorem run_setRun (s : State) (r : RunState) : (s.setRun r).run = r := rfl
@[simp] theorem out_setRun (s : State) (r : RunState) : (s.setRun r).out = s.out := rfl
@[simp] theorem mem_setRun (s : State) (r : RunState) : (s.setRun r).mem = s.mem := rfl
@[simp] theorem moves_setRun (s : State) (r : RunState) : (s.setRun r).moves = s.moves := rfl
@[simp] theorem turn_setRun (s : State) (r : RunState) : (s.setRun r).turn = s.turn := rfl
@[simp] theorem reg_setRun (s : State) (r : RunState) (q : RegIdx) : (s.setRun r).reg q = s.reg q := rfl
@[simp] theorem memRead_setRun (s : State) (r : RunState) (k : Byte) : (s.setRun r).memRead k = s.memRead k := rfl

@[simp] theorem regs_setMoves (s : State) (ms : List HostMove) : (s.setMoves ms).regs = s.regs := rfl
@[simp] theorem pc_setMoves (s : State) (ms : List HostMove) : (s.setMoves ms).pc = s.pc := rfl
@[simp] theorem ir_setMoves (s : State) (ms : List HostMove) : (s.setMoves ms).ir = s.ir := rfl
@[simp] theorem ie_setMoves (s : State) (ms : List HostMove) : (s.setMoves ms).ie = s.ie := rfl
@[simp] theorem ov_setMoves (s : State) (ms : List HostMove) : (s.setMoves ms).ov = s.ov := rfl
@[simp] theorem run_setMoves (s : State) (ms : List HostMove) : (s.setMoves ms).run = s.run := rfl
@[simp] theorem out_setMoves (s : State) (ms : List HostMove) : (s.setMoves ms).out = s.out := rfl
@[simp] theorem mem_setMoves (s : State) (ms : List HostMove) : (s.setMoves ms).mem = s.mem := rfl
@[simp] theorem moves_setMoves (s : State) (ms : List HostMove) : (s.setMoves ms).moves = ms := rfl
@[simp] theorem turn_setMoves (s : State) (ms : List HostMove) : (s.setMoves ms).turn = s.turn := rfl
@[simp] theorem reg_setMoves (s : State) (ms : List HostMove) (q : RegIdx) : (s.setMoves ms).reg q = s.reg q := rfl
@[simp] theorem memRead_setMoves (s : State) (ms : List HostMove) (k : Byte) : (s.setMoves ms).memRead k = s.memRead k := rfl

@[simp] theorem regs_emit (s : State) (e : OutEvent) : (s.emit e).regs = s.regs := rfl
@[simp] theorem pc_emit (s : State) (e : OutEvent) : (s.emit e).pc = s.pc := rfl
@[simp] theorem ir_emit (s : State) (e : OutEvent) : (s.emit e).ir = s.ir := rfl
@[simp] theorem ie_emit (s : State) (e : OutEvent) : (s.emit e).ie = s.ie := rfl
@[simp] theorem ov_emit (s : State) (e : OutEvent) : (s.emit e).ov = s.ov := rfl
@[simp] theorem run_emit (s : State) (e : OutEvent) : (s.emit e).run = s.run := rfl
@[simp] theorem out_emit (s : State) (e : OutEvent) : (s.emit e).out = s.out ++ [e] := rfl
@[simp] theorem mem_emit (s : State) (e : OutEvent) : (s.emit e).mem = s.mem := rfl
@[simp] theorem moves_emit (s : State) (e : OutEvent) : (s.emit e).moves = s.moves := rfl
@[simp] theorem turn_emit (s : State) (e : OutEvent) : (s.emit e).turn = s.turn := rfl
@[simp] theorem reg_emit (s : State) (e : OutEvent) (q : RegIdx) : (s.emit e).reg q = s.reg q := rfl
@[simp] theorem memRead_emit (s : State) (e : OutEvent) (k : Byte) : (s.emit e).memRead k = s.memRead k := rfl

@[simp] theorem regs_memWrite (s : State) (a v : Byte) : (s.memWrite a v).regs = s.regs := rfl
@[simp] theorem pc_memWrite (s : State) (a v : Byte) : (s.memWrite a v).pc = s.pc := rfl
@[simp] theorem ir_memWrite (s : State) (a v : Byte) : (s.memWrite a v).ir = s.ir := rfl
@[simp] theorem ie_memWrite (s : State) (a v : Byte) : (s.memWrite a v).ie = s.ie := rfl
@[simp] theorem ov_memWrite (s : State) (a v : Byte) : (s.memWrite a v).ov = s.ov := rfl
@[simp] theorem run_memWrite (s : State) (a v : Byte) : (s.memWrite a v).run = s.run := rfl
@[simp] theorem out_memWrite (s : State) (a v : Byte) : (s.memWrite a v).out = s.out := rfl
@[simp] theorem mem_memWrite (s : State) (a v : Byte) : (s.memWrite a v).mem = Memory.write s.mem a.toNat v := rfl
@[simp] theorem moves_memWrite (s : State) (a v : Byte) : (s.memWrite a v).moves = s.moves := rfl
@[simp] theorem turn_memWrite (s : State) (a v : Byte) : (s.memWrite a v).turn = s.turn := rfl
@[simp] theorem reg_memWrite (s : State) (a v : Byte) (q : RegIdx) : (s.memWrite a v).reg q = s.reg q := rfl

/-- A register after a register is written (R101). -/
theorem reg_setReg (s : State) (r : RegIdx) (v : Byte) (q : RegIdx) :
    (s.setReg r v).reg q = if q = r then v else s.reg q := by
  simp only [State.reg, State.setReg, Fin.getElem_fin, Vector.getElem_set, Fin.ext_iff]
  simp only [eq_comm]

@[simp] theorem reg_setReg_same (s : State) (r : RegIdx) (v : Byte) : (s.setReg r v).reg r = v := by
  simp [reg_setReg]

theorem reg_setReg_ne (s : State) {r q : RegIdx} (v : Byte) (h : q ≠ r) : (s.setReg r v).reg q = s.reg q := by
  simp [reg_setReg, h]

/-- Two register files are equal when every register is. -/
theorem regs_ext {s t : State} (h : ∀ r, t.reg r = s.reg r) : t.regs = s.regs := by
  apply Vector.ext
  intro i hi
  exact h ⟨i, hi⟩

/-- Two states are equal when every register and every other field is. -/
theorem state_ext {s t : State} (hr : ∀ r, t.reg r = s.reg r) (hpc : t.pc = s.pc) (hir : t.ir = s.ir) (hie : t.ie = s.ie)
    (hov : t.ov = s.ov) (hrun : t.run = s.run) (hout : t.out = s.out) (hmem : t.mem = s.mem) (hmoves : t.moves = s.moves)
    (hturn : t.turn = s.turn) : t = s := by
  have hregs := regs_ext hr
  cases s
  cases t
  simp_all

/-! ### The composite updates -/

@[simp] theorem regs_advance (s : State) (n : Nat) : (s.advance n).regs = s.regs := rfl
@[simp] theorem pc_advance (s : State) (n : Nat) : (s.advance n).pc = s.pc + BitVec.ofNat 8 n := rfl
@[simp] theorem ir_advance (s : State) (n : Nat) : (s.advance n).ir = s.ir := rfl
@[simp] theorem ie_advance (s : State) (n : Nat) : (s.advance n).ie = s.ie := rfl
@[simp] theorem ov_advance (s : State) (n : Nat) : (s.advance n).ov = s.ov := rfl
@[simp] theorem run_advance (s : State) (n : Nat) : (s.advance n).run = s.run := rfl
@[simp] theorem out_advance (s : State) (n : Nat) : (s.advance n).out = s.out := rfl
@[simp] theorem mem_advance (s : State) (n : Nat) : (s.advance n).mem = s.mem := rfl
@[simp] theorem moves_advance (s : State) (n : Nat) : (s.advance n).moves = s.moves := rfl
@[simp] theorem turn_advance (s : State) (n : Nat) : (s.advance n).turn = s.turn := rfl
@[simp] theorem reg_advance (s : State) (n : Nat) (q : RegIdx) : (s.advance n).reg q = s.reg q := rfl
@[simp] theorem memRead_advance (s : State) (n : Nat) (k : Byte) : (s.advance n).memRead k = s.memRead k := rfl

@[simp] theorem pc_decSp (s : State) : (s.decSp).pc = s.pc := rfl
@[simp] theorem ir_decSp (s : State) : (s.decSp).ir = s.ir := rfl
@[simp] theorem ie_decSp (s : State) : (s.decSp).ie = s.ie := rfl
@[simp] theorem ov_decSp (s : State) : (s.decSp).ov = s.ov := rfl
@[simp] theorem run_decSp (s : State) : (s.decSp).run = s.run := rfl
@[simp] theorem out_decSp (s : State) : (s.decSp).out = s.out := rfl
@[simp] theorem mem_decSp (s : State) : (s.decSp).mem = s.mem := rfl
@[simp] theorem moves_decSp (s : State) : (s.decSp).moves = s.moves := rfl
@[simp] theorem turn_decSp (s : State) : (s.decSp).turn = s.turn := rfl
@[simp] theorem memRead_decSp (s : State) (k : Byte) : (s.decSp).memRead k = s.memRead k := rfl

@[simp] theorem pc_incSp (s : State) : (s.incSp).pc = s.pc := rfl
@[simp] theorem ir_incSp (s : State) : (s.incSp).ir = s.ir := rfl
@[simp] theorem ie_incSp (s : State) : (s.incSp).ie = s.ie := rfl
@[simp] theorem ov_incSp (s : State) : (s.incSp).ov = s.ov := rfl
@[simp] theorem run_incSp (s : State) : (s.incSp).run = s.run := rfl
@[simp] theorem out_incSp (s : State) : (s.incSp).out = s.out := rfl
@[simp] theorem mem_incSp (s : State) : (s.incSp).mem = s.mem := rfl
@[simp] theorem moves_incSp (s : State) : (s.incSp).moves = s.moves := rfl
@[simp] theorem turn_incSp (s : State) : (s.incSp).turn = s.turn := rfl
@[simp] theorem memRead_incSp (s : State) (k : Byte) : (s.incSp).memRead k = s.memRead k := rfl

@[simp] theorem pc_push (s : State) (v : Byte) : (s.push v).pc = s.pc := rfl
@[simp] theorem ir_push (s : State) (v : Byte) : (s.push v).ir = s.ir := rfl
@[simp] theorem ie_push (s : State) (v : Byte) : (s.push v).ie = s.ie := rfl
@[simp] theorem ov_push (s : State) (v : Byte) : (s.push v).ov = s.ov := rfl
@[simp] theorem run_push (s : State) (v : Byte) : (s.push v).run = s.run := rfl
@[simp] theorem out_push (s : State) (v : Byte) : (s.push v).out = s.out := rfl
@[simp] theorem mem_push (s : State) (v : Byte) : (s.push v).mem = Memory.write s.mem (s.reg sp - 1).toNat v := by
  simp [State.push, State.decSp]
@[simp] theorem moves_push (s : State) (v : Byte) : (s.push v).moves = s.moves := rfl
@[simp] theorem turn_push (s : State) (v : Byte) : (s.push v).turn = s.turn := rfl

@[simp] theorem pc_pushReg (s : State) (r : RegIdx) : (s.pushReg r).pc = s.pc := rfl
@[simp] theorem ir_pushReg (s : State) (r : RegIdx) : (s.pushReg r).ir = s.ir := rfl
@[simp] theorem ie_pushReg (s : State) (r : RegIdx) : (s.pushReg r).ie = s.ie := rfl
@[simp] theorem ov_pushReg (s : State) (r : RegIdx) : (s.pushReg r).ov = s.ov := rfl
@[simp] theorem run_pushReg (s : State) (r : RegIdx) : (s.pushReg r).run = s.run := rfl
@[simp] theorem out_pushReg (s : State) (r : RegIdx) : (s.pushReg r).out = s.out := rfl
@[simp] theorem mem_pushReg (s : State) (r : RegIdx) : (s.pushReg r).mem = Memory.write s.mem (s.reg sp - 1).toNat (s.decSp.reg r) := by
  simp [State.pushReg, State.decSp]
@[simp] theorem moves_pushReg (s : State) (r : RegIdx) : (s.pushReg r).moves = s.moves := rfl
@[simp] theorem turn_pushReg (s : State) (r : RegIdx) : (s.pushReg r).turn = s.turn := rfl

@[simp] theorem pc_popReg (s : State) (d : RegIdx) : (s.popReg d).pc = s.pc := rfl
@[simp] theorem ir_popReg (s : State) (d : RegIdx) : (s.popReg d).ir = s.ir := rfl
@[simp] theorem ie_popReg (s : State) (d : RegIdx) : (s.popReg d).ie = s.ie := rfl
@[simp] theorem ov_popReg (s : State) (d : RegIdx) : (s.popReg d).ov = s.ov := rfl
@[simp] theorem run_popReg (s : State) (d : RegIdx) : (s.popReg d).run = s.run := rfl
@[simp] theorem out_popReg (s : State) (d : RegIdx) : (s.popReg d).out = s.out := rfl
@[simp] theorem mem_popReg (s : State) (d : RegIdx) : (s.popReg d).mem = s.mem := rfl
@[simp] theorem moves_popReg (s : State) (d : RegIdx) : (s.popReg d).moves = s.moves := rfl
@[simp] theorem turn_popReg (s : State) (d : RegIdx) : (s.popReg d).turn = s.turn := rfl
@[simp] theorem memRead_popReg (s : State) (d : RegIdx) (k : Byte) : (s.popReg d).memRead k = s.memRead k := rfl

@[simp] theorem pc_popPc (s : State) : (s.popPc).pc = s.memRead (s.reg sp) := rfl
@[simp] theorem ir_popPc (s : State) : (s.popPc).ir = s.ir := rfl
@[simp] theorem ie_popPc (s : State) : (s.popPc).ie = s.ie := rfl
@[simp] theorem ov_popPc (s : State) : (s.popPc).ov = s.ov := rfl
@[simp] theorem run_popPc (s : State) : (s.popPc).run = s.run := rfl
@[simp] theorem out_popPc (s : State) : (s.popPc).out = s.out := rfl
@[simp] theorem mem_popPc (s : State) : (s.popPc).mem = s.mem := rfl
@[simp] theorem moves_popPc (s : State) : (s.popPc).moves = s.moves := rfl
@[simp] theorem turn_popPc (s : State) : (s.popPc).turn = s.turn := rfl
@[simp] theorem memRead_popPc (s : State) (k : Byte) : (s.popPc).memRead k = s.memRead k := rfl

@[simp] theorem regs_raiseFault (s : State) (reason : FaultReason) : (s.raiseFault reason).regs = s.regs := rfl
@[simp] theorem pc_raiseFault (s : State) (reason : FaultReason) : (s.raiseFault reason).pc = s.pc := rfl
@[simp] theorem ir_raiseFault (s : State) (reason : FaultReason) : (s.raiseFault reason).ir = s.ir := rfl
@[simp] theorem ie_raiseFault (s : State) (reason : FaultReason) : (s.raiseFault reason).ie = s.ie := rfl
@[simp] theorem ov_raiseFault (s : State) (reason : FaultReason) : (s.raiseFault reason).ov = s.ov := rfl
@[simp] theorem run_raiseFault (s : State) (reason : FaultReason) : (s.raiseFault reason).run = .faulted reason s.pc s.ir := rfl
@[simp] theorem out_raiseFault (s : State) (reason : FaultReason) : (s.raiseFault reason).out = s.out := rfl
@[simp] theorem mem_raiseFault (s : State) (reason : FaultReason) : (s.raiseFault reason).mem = s.mem := rfl
@[simp] theorem moves_raiseFault (s : State) (reason : FaultReason) : (s.raiseFault reason).moves = s.moves := rfl
@[simp] theorem turn_raiseFault (s : State) (reason : FaultReason) : (s.raiseFault reason).turn = s.turn := rfl
@[simp] theorem reg_raiseFault (s : State) (reason : FaultReason) (q : RegIdx) : (s.raiseFault reason).reg q = s.reg q := rfl
@[simp] theorem memRead_raiseFault (s : State) (reason : FaultReason) (k : Byte) : (s.raiseFault reason).memRead k = s.memRead k := rfl

@[simp] theorem regs_halt (s : State) : (s.halt).regs = s.regs := rfl
@[simp] theorem pc_halt (s : State) : (s.halt).pc = s.pc := rfl
@[simp] theorem ir_halt (s : State) : (s.halt).ir = s.ir := rfl
@[simp] theorem ie_halt (s : State) : (s.halt).ie = s.ie := rfl
@[simp] theorem ov_halt (s : State) : (s.halt).ov = s.ov := rfl
@[simp] theorem run_halt (s : State) : (s.halt).run = .halted := rfl
@[simp] theorem out_halt (s : State) : (s.halt).out = s.out := rfl
@[simp] theorem mem_halt (s : State) : (s.halt).mem = s.mem := rfl
@[simp] theorem moves_halt (s : State) : (s.halt).moves = s.moves := rfl
@[simp] theorem turn_halt (s : State) : (s.halt).turn = s.turn := rfl
@[simp] theorem reg_halt (s : State) (q : RegIdx) : (s.halt).reg q = s.reg q := rfl
@[simp] theorem memRead_halt (s : State) (k : Byte) : (s.halt).memRead k = s.memRead k := rfl

@[simp] theorem regs_takeMove (s : State) : s.takeMove.regs = s.regs := rfl
@[simp] theorem pc_takeMove (s : State) : s.takeMove.pc = s.pc := rfl
@[simp] theorem ir_takeMove (s : State) : s.takeMove.ir = s.ir := rfl
@[simp] theorem ie_takeMove (s : State) : s.takeMove.ie = s.ie := rfl
@[simp] theorem ov_takeMove (s : State) : s.takeMove.ov = s.ov := rfl
@[simp] theorem run_takeMove (s : State) : s.takeMove.run = s.run := rfl
@[simp] theorem out_takeMove (s : State) : s.takeMove.out = s.out := rfl
@[simp] theorem mem_takeMove (s : State) : s.takeMove.mem = s.mem := rfl
@[simp] theorem moves_takeMove (s : State) : s.takeMove.moves = s.moves.tail := rfl
@[simp] theorem reg_takeMove (s : State) (q : RegIdx) : s.takeMove.reg q = s.reg q := rfl
@[simp] theorem memRead_takeMove (s : State) (k : Byte) : s.takeMove.memRead k = s.memRead k := rfl

/-- Where a move is listed, taking it drops it from the list. -/
theorem takeMove_cons (s : State) (m : HostMove) (ms : List HostMove) :
    (s.setMoves (m :: ms)).takeMove = s.setMoves ms := rfl

/-- Where none is listed, taking one advances the turn of the host's schedule. -/
theorem takeMove_nil {s : State} (h : s.moves = []) : s.takeMove = { s with turn := s.turn + 1 } := by
  simp [State.takeMove, h]

@[simp] theorem pc_raiseTimerEvent (s : State) : (s.raiseTimerEvent).pc = s.pc := rfl
@[simp] theorem ir_raiseTimerEvent (s : State) : (s.raiseTimerEvent).ir = s.ir := rfl
@[simp] theorem ie_raiseTimerEvent (s : State) : (s.raiseTimerEvent).ie = s.ie := rfl
@[simp] theorem ov_raiseTimerEvent (s : State) : (s.raiseTimerEvent).ov = s.ov := rfl
@[simp] theorem run_raiseTimerEvent (s : State) : (s.raiseTimerEvent).run = s.run := rfl
@[simp] theorem out_raiseTimerEvent (s : State) : (s.raiseTimerEvent).out = s.out := rfl
@[simp] theorem mem_raiseTimerEvent (s : State) : (s.raiseTimerEvent).mem = s.mem := rfl
@[simp] theorem moves_raiseTimerEvent (s : State) : (s.raiseTimerEvent).moves = s.moves := rfl
@[simp] theorem turn_raiseTimerEvent (s : State) : (s.raiseTimerEvent).turn = s.turn := rfl
@[simp] theorem memRead_raiseTimerEvent (s : State) (k : Byte) : (s.raiseTimerEvent).memRead k = s.memRead k := rfl

@[simp] theorem pc_raiseLine (s : State) (i : Line) : (s.raiseLine i).pc = s.pc := rfl
@[simp] theorem ir_raiseLine (s : State) (i : Line) : (s.raiseLine i).ir = s.ir := rfl
@[simp] theorem ie_raiseLine (s : State) (i : Line) : (s.raiseLine i).ie = s.ie := rfl
@[simp] theorem ov_raiseLine (s : State) (i : Line) : (s.raiseLine i).ov = s.ov := rfl
@[simp] theorem run_raiseLine (s : State) (i : Line) : (s.raiseLine i).run = s.run := rfl
@[simp] theorem out_raiseLine (s : State) (i : Line) : (s.raiseLine i).out = s.out := rfl
@[simp] theorem mem_raiseLine (s : State) (i : Line) : (s.raiseLine i).mem = s.mem := rfl
@[simp] theorem moves_raiseLine (s : State) (i : Line) : (s.raiseLine i).moves = s.moves := rfl
@[simp] theorem turn_raiseLine (s : State) (i : Line) : (s.raiseLine i).turn = s.turn := rfl
@[simp] theorem memRead_raiseLine (s : State) (i : Line) (k : Byte) : (s.raiseLine i).memRead k = s.memRead k := rfl

theorem reg_decSp (s : State) (q : RegIdx) : s.decSp.reg q = if q = sp then s.reg sp - 1 else s.reg q :=
  reg_setReg ..

theorem reg_incSp (s : State) (q : RegIdx) : s.incSp.reg q = if q = sp then s.reg sp + 1 else s.reg q :=
  reg_setReg ..

/-- The registers after `Push(v)`: R7 is decremented (R206). -/
theorem reg_push (s : State) (v : Byte) (q : RegIdx) : (s.push v).reg q = if q = sp then s.reg sp - 1 else s.reg q :=
  reg_decSp ..

/-- The registers after `PushReg(r)`: R7 is decremented (R206). -/
theorem reg_pushReg (s : State) (r q : RegIdx) : (s.pushReg r).reg q = if q = sp then s.reg sp - 1 else s.reg q :=
  reg_decSp ..

/-- The registers after `PopReg(d)` (R206): `d` holds the byte read and R7 is incremented, after the read and after `d` is written. -/
theorem reg_popReg (s : State) (d q : RegIdx) :
    (s.popReg d).reg q =
      if q = sp then (if d = sp then s.memRead (s.reg sp) else s.reg sp) + 1
      else if q = d then s.memRead (s.reg sp) else s.reg q := by
  simp only [State.popReg, reg_incSp, reg_setReg]
  split
  · simp only [eq_comm]
  · rfl

/-- The registers after `PopPC()`: R7 is incremented (R206). -/
theorem reg_popPc (s : State) (q : RegIdx) : s.popPc.reg q = if q = sp then s.reg sp + 1 else s.reg q := by
  simp only [State.popPc, reg_incSp, reg_setPc]

/-- The registers after a timer event: bit 0 of IS is set (R702). -/
theorem reg_raiseTimerEvent (s : State) (q : RegIdx) :
    s.raiseTimerEvent.reg q = if q = is then s.reg is ||| 0x01 else s.reg q :=
  reg_setReg ..

/-- The registers after line `i` is raised: bit `i` of IS is set (R704). -/
theorem reg_raiseLine (s : State) (i : Line) (q : RegIdx) :
    (s.raiseLine i).reg q = if q = is then s.reg is ||| lineBit i else s.reg q :=
  reg_setReg ..

end Sys2Proof.Machine
end

