-- ==== Sys2Proof/Laws/Operands.lean ====
section
/-! SUPPORT. What the operand forms answer (spec 40_cycle_engine.md R404), and when `complete` answers what. -/

namespace Sys2Proof.Machine

@[simp] theorem toNat_regByte (r : RegIdx) : (regByte r).toNat = r.val := by
  simp only [regByte, BitVec.toNat_ofNat]; omega

/-- The byte that names register `r` is read as `r` (R302). -/
@[simp] theorem registerOperand_regByte (r : RegIdx) : registerOperand (regByte r) = .ok r := by
  simp [registerOperand]

/-- A register operand byte is read as `r` exactly when it is the byte that names `r`. -/
theorem registerOperand_ok {b : Byte} {r : RegIdx} : registerOperand b = .ok r ↔ b = regByte r := by
  constructor
  · intro h
    unfold registerOperand at h
    split at h
    · cases h
      exact BitVec.eq_of_toNat_eq (by simp)
    · cases h
  · rintro rfl
    exact registerOperand_regByte r

/-- A register operand byte above 7 is `BadRegister` (R302). -/
theorem registerOperand_error {b : Byte} {e : FaultReason} :
    registerOperand b = .error e ↔ 7 < b.toNat ∧ e = .badRegister := by
  unfold registerOperand
  split
  · simp only [reduceCtorEq, false_iff]; omega
  · simp only [Except.error.injEq, eq_comm, iff_and_self]; omega

/-- A byte of at most 7 names a register. -/
theorem exists_regByte {b : Byte} (h : NamesRegister b) : ∃ r : RegIdx, b = regByte r :=
  ⟨⟨b.toNat, Nat.lt_succ_of_le h⟩, BitVec.eq_of_toNat_eq (by simp)⟩

theorem namesRegister_regByte (r : RegIdx) : NamesRegister (regByte r) := by
  simp only [NamesRegister, toNat_regByte]; omega

/-- What `operandR` answers, the checks in the order of R404. -/
theorem operandR_eq (s : State) (b : Byte) :
    s.operandR b =
      if 0xFE < s.pc.toNat then .error .operandOutOfRange
      else match registerOperand b with
        | .ok r => if 0xFD < s.pc.toNat then .error .pcOverflow else .ok r
        | .error e => .error e := by
  simp only [State.operandR, State.operandsInRange, State.successorInRange, gt_iff_lt]
  by_cases h1 : 0xFE < s.pc.toNat
  · rw [if_pos (by omega), if_pos h1]; rfl
  · rw [if_neg (by omega), if_neg h1]
    cases registerOperand b with
    | error e => rfl
    | ok r =>
      by_cases h2 : 0xFD < s.pc.toNat
      · simp only [if_pos h2, if_pos (show 255 < s.pc.toNat + 1 + 1 by omega)]; rfl
      · simp only [if_neg h2, if_neg (show ¬ 255 < s.pc.toNat + 1 + 1 by omega)]; rfl

/-- What `operandRJump` answers. -/
theorem operandRJump_eq (s : State) (b : Byte) :
    s.operandRJump b = if 0xFE < s.pc.toNat then .error .operandOutOfRange else registerOperand b := by
  simp only [State.operandRJump, State.operandsInRange, gt_iff_lt]
  by_cases h1 : 0xFE < s.pc.toNat
  · rw [if_pos (by omega), if_pos h1]; rfl
  · rw [if_neg (by omega), if_neg h1]; rfl

/-- What `operandsRR` answers, the checks in the order of R404. -/
theorem operandsRR_eq (s : State) (b1 b2 : Byte) :
    s.operandsRR b1 b2 =
      if 0xFD < s.pc.toNat then .error .operandOutOfRange
      else match registerOperand b1, registerOperand b2 with
        | .ok r1, .ok r2 => if 0xFC < s.pc.toNat then .error .pcOverflow else .ok (r1, r2)
        | .error e, _ => .error e
        | .ok _, .error e => .error e := by
  simp only [State.operandsRR, State.operandsInRange, State.successorInRange, gt_iff_lt]
  by_cases h1 : 0xFD < s.pc.toNat
  · rw [if_pos (by omega), if_pos h1]; rfl
  · rw [if_neg (by omega), if_neg h1]
    cases registerOperand b1 with
    | error e => rfl
    | ok r1 =>
      cases registerOperand b2 with
      | error e => rfl
      | ok r2 =>
        by_cases h2 : 0xFC < s.pc.toNat
        · simp only [if_pos h2, if_pos (show 255 < s.pc.toNat + 2 + 1 by omega)]; rfl
        · simp only [if_neg h2, if_neg (show ¬ 255 < s.pc.toNat + 2 + 1 by omega)]; rfl

/-- What `operandsRI` answers, the checks in the order of R404. -/
theorem operandsRI_eq (s : State) (b imm : Byte) :
    s.operandsRI b imm =
      if 0xFD < s.pc.toNat then .error .operandOutOfRange
      else match registerOperand b with
        | .ok r => if 0xFC < s.pc.toNat then .error .pcOverflow else .ok (r, imm)
        | .error e => .error e := by
  simp only [State.operandsRI, State.operandsInRange, State.successorInRange, gt_iff_lt]
  by_cases h1 : 0xFD < s.pc.toNat
  · rw [if_pos (by omega), if_pos h1]; rfl
  · rw [if_neg (by omega), if_neg h1]
    cases registerOperand b with
    | error e => rfl
    | ok r =>
      by_cases h2 : 0xFC < s.pc.toNat
      · simp only [if_pos h2, if_pos (show 255 < s.pc.toNat + 2 + 1 by omega)]; rfl
      · simp only [if_neg h2, if_neg (show ¬ 255 < s.pc.toNat + 2 + 1 by omega)]; rfl

theorem operandR_ok {s : State} {b : Byte} {r : RegIdx} :
    s.operandR b = .ok r ↔ s.pc.toNat ≤ 0xFD ∧ b = regByte r := by
  rw [operandR_eq, ← registerOperand_ok]
  cases registerOperand b <;> split_ifs <;> simp <;> omega

theorem operandRJump_ok {s : State} {b : Byte} {r : RegIdx} :
    s.operandRJump b = .ok r ↔ s.pc.toNat ≤ 0xFE ∧ b = regByte r := by
  rw [operandRJump_eq, ← registerOperand_ok]
  cases registerOperand b <;> split_ifs <;> simp <;> omega

theorem operandsRR_ok {s : State} {b1 b2 : Byte} {r : RegIdx × RegIdx} :
    s.operandsRR b1 b2 = .ok r ↔ s.pc.toNat ≤ 0xFC ∧ b1 = regByte r.1 ∧ b2 = regByte r.2 := by
  rw [operandsRR_eq, ← registerOperand_ok, ← registerOperand_ok]
  cases registerOperand b1 <;> cases registerOperand b2 <;> split_ifs <;> simp [Prod.ext_iff] <;> omega

theorem operandsRI_ok {s : State} {b imm : Byte} {r : RegIdx × Byte} :
    s.operandsRI b imm = .ok r ↔ s.pc.toNat ≤ 0xFC ∧ b = regByte r.1 ∧ imm = r.2 := by
  rw [operandsRI_eq, ← registerOperand_ok]
  cases registerOperand b <;> split_ifs <;> simp [Prod.ext_iff] <;> omega

/-- The reasons an operand form can fault with. -/
def OperandFault (e : FaultReason) : Prop := e = .operandOutOfRange ∨ e = .badRegister ∨ e = .pcOverflow

theorem operandFault_ne_alu {e : FaultReason} (h : OperandFault e) : e ≠ .aluUnsupported := by
  rcases h with rfl | rfl | rfl <;> simp

theorem operandFault_ne_unknown {e : FaultReason} (h : OperandFault e) : e ≠ .unknownOpcode := by
  rcases h with rfl | rfl | rfl <;> simp

theorem operandR_error {s : State} {b : Byte} {e : FaultReason} (h : s.operandR b = .error e) : OperandFault e := by
  rw [operandR_eq] at h
  cases hb : registerOperand b with
  | ok r => rw [hb] at h; split_ifs at h <;> simp_all [OperandFault]
  | error e' =>
    obtain ⟨-, rfl⟩ := registerOperand_error.mp hb
    rw [hb] at h; split_ifs at h <;> simp_all [OperandFault]

theorem operandRJump_error {s : State} {b : Byte} {e : FaultReason} (h : s.operandRJump b = .error e) :
    OperandFault e := by
  rw [operandRJump_eq] at h
  split_ifs at h
  · simp_all [OperandFault]
  · obtain ⟨-, rfl⟩ := registerOperand_error.mp h
    simp [OperandFault]

theorem operandsRR_error {s : State} {b1 b2 : Byte} {e : FaultReason} (h : s.operandsRR b1 b2 = .error e) :
    OperandFault e := by
  rw [operandsRR_eq] at h
  cases h1 : registerOperand b1 with
  | error e' =>
    obtain ⟨-, rfl⟩ := registerOperand_error.mp h1
    rw [h1] at h; split_ifs at h <;> simp_all [OperandFault]
  | ok r1 =>
    cases h2 : registerOperand b2 with
    | ok r2 => rw [h1, h2] at h; split_ifs at h <;> simp_all [OperandFault]
    | error e' =>
      obtain ⟨-, rfl⟩ := registerOperand_error.mp h2
      rw [h1, h2] at h; split_ifs at h <;> simp_all [OperandFault]

theorem operandsRI_error {s : State} {b imm : Byte} {e : FaultReason} (h : s.operandsRI b imm = .error e) :
    OperandFault e := by
  rw [operandsRI_eq] at h
  cases hb : registerOperand b with
  | ok r => rw [hb] at h; split_ifs at h <;> simp_all [OperandFault]
  | error e' =>
    obtain ⟨-, rfl⟩ := registerOperand_error.mp hb
    rw [hb] at h; split_ifs at h <;> simp_all [OperandFault]

/-- Everything `complete` answers: a next state, the one computed or the fault-stop. -/
theorem complete_cases {s t : State} {x : Except FaultReason State} (h : s.complete x = .next t) :
    x = .ok t ∨ ∃ e, x = .error e ∧ t = s.raiseFault e := by
  cases x with
  | ok u => cases h; exact .inl rfl
  | error e => cases h; exact .inr ⟨e, rfl, rfl⟩

@[simp] theorem complete_ok (s t : State) : s.complete (.ok t) = .next t := rfl

@[simp] theorem complete_error (s : State) (e : FaultReason) : s.complete (.error e) = .next (s.raiseFault e) := rfl

end Sys2Proof.Machine
end

