-- ==== Sys2Proof/Laws/Exec.lean ====
section
/-! SUPPORT. One inversion lemma per meaning: everything `exec` can answer for it. A meaning whose operands can fail answers the
fault-stop of the state it began in or its own next state. -/

namespace Sys2Proof.Machine

theorem bind_ok {α β : Type} {x : Except FaultReason α} {f : α → Except FaultReason β} {b : β}
    (h : (x >>= f) = .ok b) : ∃ a, x = .ok a ∧ f a = .ok b := by
  cases x with
  | error e => cases h
  | ok a => exact ⟨a, rfl, h⟩

theorem bind_error {α β : Type} {x : Except FaultReason α} {f : α → Except FaultReason β} {e : FaultReason}
    (h : (x >>= f) = .error e) : x = .error e ∨ ∃ a, x = .ok a ∧ f a = .error e := by
  cases x with
  | error e' => cases h; exact .inl rfl
  | ok a => exact .inr ⟨a, rfl, h⟩

/-- The fault-stop of an instruction's own checks. -/
def FaultStops (s t : State) : Prop := ∃ e, OperandFault e ∧ t = s.raiseFault e

theorem execHlt_cases {s t : State} (h : exec .hlt s = .next t) : t = s.halt := by
  cases h; rfl

theorem execLdi_cases {s t : State} {d imm : Byte} (h : exec (.ldi d imm) s = .next t) :
    FaultStops s t ∨ ∃ r, d = regByte r ∧ s.pc.toNat ≤ 0xFC ∧ t = (s.setReg r imm).advance 3 := by
  rcases complete_cases h with h | ⟨e, he, rfl⟩
  · obtain ⟨⟨r, v⟩, hr, hk⟩ := bind_ok h
    obtain ⟨hpc, rfl, rfl⟩ := operandsRI_ok.mp hr
    cases hk
    exact .inr ⟨r, rfl, hpc, rfl⟩
  · rcases bind_error he with h | ⟨r, -, hk⟩
    · exact .inl ⟨e, operandsRI_error h, rfl⟩
    · cases hk

theorem aluInto_ok {s t : State} {sel : AluSelector} {a b : Byte} (h : s.aluInto sel a b = .ok t) :
    ∃ r1 r2 v, a = regByte r1 ∧ b = regByte r2 ∧ s.pc.toNat ≤ 0xFC ∧ alu sel (s.reg r1) (s.reg r2) = .ok v ∧
      t = (s.setReg r1 v).advance 3 := by
  obtain ⟨⟨r1, r2⟩, hr, hk⟩ := bind_ok h
  obtain ⟨hpc, rfl, rfl⟩ := operandsRR_ok.mp hr
  obtain ⟨v, hv, ht⟩ := bind_ok hk
  cases ht
  exact ⟨r1, r2, v, rfl, rfl, hpc, hv, rfl⟩

theorem aluInto_error {s : State} {sel : AluSelector} {a b : Byte} {e : FaultReason} (h : s.aluInto sel a b = .error e) :
    OperandFault e ∨ ∃ x y, alu sel x y = .error e := by
  rcases bind_error h with h | ⟨⟨r1, r2⟩, -, hk⟩
  · exact .inl (operandsRR_error h)
  · rcases bind_error hk with h | ⟨v, -, h⟩
    · exact .inr ⟨_, _, h⟩
    · cases h

theorem execMul_cases {s t : State} {a b : Byte} (h : exec (.mul a b) s = .next t) :
    FaultStops s t ∨ ∃ r1 r2, a = regByte r1 ∧ b = regByte r2 ∧ s.pc.toNat ≤ 0xFC ∧
      t = (s.setReg r1 (BitVec.ofNat 8 ((s.reg r1).toNat * (s.reg r2).toNat))).advance 3 := by
  rcases complete_cases h with h | ⟨e, he, rfl⟩
  · obtain ⟨r1, r2, v, rfl, rfl, hpc, hv, rfl⟩ := aluInto_ok h
    cases hv
    exact .inr ⟨r1, r2, rfl, rfl, hpc, rfl⟩
  · rcases aluInto_error he with h | ⟨x, y, h⟩
    · exact .inl ⟨e, h, rfl⟩
    · cases h

theorem execAdd_cases {s t : State} {a b : Byte} (h : exec (.add a b) s = .next t) :
    FaultStops s t ∨ ∃ r1 r2, a = regByte r1 ∧ b = regByte r2 ∧ s.pc.toNat ≤ 0xFC ∧
      t = (s.setReg r1 (BitVec.ofNat 8 ((s.reg r1).toNat + (s.reg r2).toNat))).advance 3 := by
  rcases complete_cases h with h | ⟨e, he, rfl⟩
  · obtain ⟨r1, r2, v, rfl, rfl, hpc, hv, rfl⟩ := aluInto_ok h
    cases hv
    exact .inr ⟨r1, r2, rfl, rfl, hpc, rfl⟩
  · rcases aluInto_error he with h | ⟨x, y, h⟩
    · exact .inl ⟨e, h, rfl⟩
    · cases h

/-- The shape the meanings over `operandR` share. -/
theorem completeR_cases {s t : State} {b : Byte} {k : RegIdx → State}
    (h : (s.complete do let r ← s.operandR b; return k r) = .next t) :
    FaultStops s t ∨ ∃ r, b = regByte r ∧ s.pc.toNat ≤ 0xFD ∧ t = k r := by
  rcases complete_cases h with h | ⟨e, he, rfl⟩
  · obtain ⟨r, hr, hk⟩ := bind_ok h
    obtain ⟨hpc, rfl⟩ := operandR_ok.mp hr
    cases hk
    exact .inr ⟨r, rfl, hpc, rfl⟩
  · rcases bind_error he with h | ⟨r, -, hk⟩
    · exact .inl ⟨e, operandR_error h, rfl⟩
    · cases hk

theorem execPrn_cases {s t : State} {a : Byte} (h : exec (.prn a) s = .next t) :
    FaultStops s t ∨ ∃ r, a = regByte r ∧ s.pc.toNat ≤ 0xFD ∧ t = (s.emit (.dec (s.reg r))).advance 2 :=
  completeR_cases h

theorem execPra_cases {s t : State} {a : Byte} (h : exec (.pra a) s = .next t) :
    FaultStops s t ∨ ∃ r, a = regByte r ∧ s.pc.toNat ≤ 0xFD ∧ t = (s.emit (.chr (s.reg r))).advance 2 :=
  completeR_cases h

theorem execPush_cases {s t : State} {a : Byte} (h : exec (.push a) s = .next t) :
    FaultStops s t ∨ ∃ r, a = regByte r ∧ s.pc.toNat ≤ 0xFD ∧ t = (s.pushReg r).advance 2 :=
  completeR_cases h

theorem execPop_cases {s t : State} {d : Byte} (h : exec (.pop d) s = .next t) :
    FaultStops s t ∨ ∃ r, d = regByte r ∧ s.pc.toNat ≤ 0xFD ∧ t = (s.popReg r).advance 2 :=
  completeR_cases h

theorem execCall_cases {s t : State} {a : Byte} (h : exec (.call a) s = .next t) :
    FaultStops s t ∨ ∃ r, a = regByte r ∧ s.pc.toNat ≤ 0xFD ∧
      t = (s.push (s.pc + 2)).setPc ((s.push (s.pc + 2)).reg r) :=
  completeR_cases h

theorem execRet_cases {s t : State} (h : exec .ret s = .next t) : t = s.popPc := by
  cases h; rfl

theorem execJmp_cases {s t : State} {a : Byte} (h : exec (.jmp a) s = .next t) :
    FaultStops s t ∨ ∃ r, a = regByte r ∧ s.pc.toNat ≤ 0xFE ∧ t = s.setPc (s.reg r) := by
  rcases complete_cases h with h | ⟨e, he, rfl⟩
  · obtain ⟨r, hr, hk⟩ := bind_ok h
    obtain ⟨hpc, rfl⟩ := operandRJump_ok.mp hr
    cases hk
    exact .inr ⟨r, rfl, hpc, rfl⟩
  · rcases bind_error he with h | ⟨r, -, hk⟩
    · exact .inl ⟨e, operandRJump_error h, rfl⟩
    · cases hk

theorem execSt_cases {s t : State} {a b : Byte} (h : exec (.st a b) s = .next t) :
    FaultStops s t ∨ ∃ r1 r2, a = regByte r1 ∧ b = regByte r2 ∧ s.pc.toNat ≤ 0xFC ∧
      t = (s.memWrite (s.reg r1) (s.reg r2)).advance 3 := by
  rcases complete_cases h with h | ⟨e, he, rfl⟩
  · obtain ⟨⟨r1, r2⟩, hr, hk⟩ := bind_ok h
    obtain ⟨hpc, rfl, rfl⟩ := operandsRR_ok.mp hr
    cases hk
    exact .inr ⟨r1, r2, rfl, rfl, hpc, rfl⟩
  · rcases bind_error he with h | ⟨r, -, hk⟩
    · exact .inl ⟨e, operandsRR_error h, rfl⟩
    · cases hk

theorem execIret_cases {s t : State} (h : exec .iret s = .next t) : t = s.interruptReturn :=
  (Host.Outcome.next.inj (show Host.Outcome.next s.interruptReturn = .next t from h)).symm

end Sys2Proof.Machine
end

