-- ==== Sys2Proof/Laws/Flags.lean ====
section
/-! SUPPORT. What the interrupt check answers (spec 60_exceptions.md R707, R708). -/

namespace Sys2Proof.Machine

/-- There is a lowest set bit unless the byte is 0 (00_scope.md R7). -/
theorem lowestSetBit_none : ∀ b : Byte, lowestSetBit b = none ↔ b = 0 := by decide

/-- The lowest set bit is set, and every lower one is clear (00_scope.md R7). -/
theorem lowestSetBit_some : ∀ (b : Byte) (i : Line),
    lowestSetBit b = some i ↔ b.getLsbD i.val = true ∧ ∀ j : Line, j < i → b.getLsbD j.val = false := by decide

/-- No interrupt is due exactly when `ie` is false or no line is both pending and enabled (R707). -/
theorem interruptDue_none {s : State} : s.interruptDue = none ↔ (s.ie = true → s.masked = 0) := by
  unfold State.interruptDue
  cases s.ie <;> simp [lowestSetBit_none]

/-- The line that is due is the lowest-numbered one pending and enabled, and `ie` is true (R707, R708). -/
theorem interruptDue_some {s : State} {i : Line} :
    s.interruptDue = some i ↔
      s.ie = true ∧ s.masked.getLsbD i.val = true ∧ ∀ j : Line, j < i → s.masked.getLsbD j.val = false := by
  unfold State.interruptDue
  cases s.ie <;> simp [lowestSetBit_some]

end Sys2Proof.Machine
end

