-- ==== Sys2Proof/Laws/Memory.lean ====
section
/-! SUPPORT. The laws of memory: a read after a write, on any list of cells, and that every operation keeps the canonical form. -/

namespace Sys2Proof.Machine

theorem read_place_same (a : Nat) (v : Byte) (m : Memory) (h : ∀ c ∈ m, c.1 ≠ a) :
    Memory.read (Memory.place a v m) a = v := by
  induction m with
  | nil => simp [Memory.place, Memory.read]
  | cons c m ih =>
    have hc : c.1 ≠ a := h c (by simp)
    simp only [Memory.place]
    split
    · simp [Memory.read]
    · simp [Memory.read, hc, ih fun d hd => h d (by simp [hd])]

theorem read_place_ne (a b : Nat) (v : Byte) (m : Memory) (h : b ≠ a) :
    Memory.read (Memory.place a v m) b = Memory.read m b := by
  induction m with
  | nil => simp [Memory.place, Memory.read, h.symm]
  | cons c m ih =>
    simp only [Memory.place]
    split
    · simp [Memory.read, h.symm]
    · simp [Memory.read, ih]

theorem drop_misses (m : Memory) (a : Nat) : ∀ c ∈ Memory.drop m a, c.1 ≠ a := by
  intro c hc
  simpa [Memory.drop] using (List.mem_filter.mp hc).2

theorem read_of_misses (m : Memory) (a : Nat) (h : ∀ c ∈ m, c.1 ≠ a) : Memory.read m a = unlistedByte a := by
  induction m with
  | nil => rfl
  | cons c m ih => simp [Memory.read, h c (by simp), ih fun d hd => h d (by simp [hd])]

theorem read_drop_ne (m : Memory) (a b : Nat) (h : b ≠ a) : Memory.read (Memory.drop m a) b = Memory.read m b := by
  induction m with
  | nil => rfl
  | cons c m ih =>
    simp only [Memory.drop, ne_eq, decide_not] at ih ⊢
    by_cases hc : c.1 = a
    · have hb : c.1 ≠ b := by omega
      simp [hc, Memory.read, ih, h.symm]
    · simp [hc, Memory.read, ih]

/-- A read after a write to the same address gives the byte written (R203). -/
@[simp] theorem read_write_same (m : Memory) (a : Nat) (v : Byte) : Memory.read (Memory.write m a v) a = v := by
  unfold Memory.write
  split
  · rw [read_of_misses _ _ (drop_misses m a)]; exact Eq.symm ‹_›
  · exact read_place_same _ _ _ (drop_misses m a)

/-- A write changes no other address (R203). -/
theorem read_write_ne (m : Memory) {a b : Nat} (v : Byte) (h : b ≠ a) :
    Memory.read (Memory.write m a v) b = Memory.read m b := by
  unfold Memory.write
  split
  · exact read_drop_ne m a b h
  · rw [read_place_ne _ _ _ _ h, read_drop_ne m a b h]

/-- A read after a write, both cases. -/
theorem read_write (m : Memory) (a b : Nat) (v : Byte) :
    Memory.read (Memory.write m a v) b = if b = a then v else Memory.read m b := by
  split
  · subst_vars; simp
  · exact read_write_ne m v ‹_›

theorem mem_place {a : Nat} {v : Byte} {m : Memory} {c : Host.Cell} :
    c ∈ Memory.place a v m ↔ c = (a, v) ∨ c ∈ m := by
  induction m with
  | nil => simp [Memory.place]
  | cons d m ih =>
    simp only [Memory.place]
    split
    · simp
    · simp only [List.mem_cons, ih]; tauto

theorem place_rising {a : Nat} {v : Byte} {m : Memory} (hs : m.Pairwise fun c d => c.1 < d.1) (h : ∀ c ∈ m, c.1 ≠ a) :
    (Memory.place a v m).Pairwise fun c d => c.1 < d.1 := by
  induction m with
  | nil => simp [Memory.place]
  | cons c m ih =>
    obtain ⟨hc, hm⟩ := List.pairwise_cons.mp hs
    have hne : c.1 ≠ a := h c (by simp)
    simp only [Memory.place]
    split
    · rename_i hlt
      refine List.pairwise_cons.mpr ⟨fun d hd => ?_, hs⟩
      rcases List.mem_cons.mp hd with rfl | hd
      · exact hlt
      · exact hlt.trans (hc d hd)
    · refine List.pairwise_cons.mpr ⟨fun d hd => ?_, ih hm fun d hd => h d (by simp [hd])⟩
      rcases mem_place.mp hd with rfl | hd
      · simp only; omega
      · exact hc d hd

theorem wf_drop {m : Memory} (h : m.wf) (a : Nat) : (Memory.drop m a).wf :=
  ⟨h.1.sublist List.filter_sublist, fun c hc => h.2 c (List.mem_filter.mp hc).1⟩

/-- A write within the address space keeps the canonical form. -/
theorem wf_write {m : Memory} (h : m.wf) {a : Nat} (ha : a ≤ 0xFF) (v : Byte) : (Memory.write m a v).wf := by
  unfold Memory.write
  split
  · exact wf_drop h a
  · rename_i hv
    refine ⟨place_rising (wf_drop h a).1 (drop_misses m a), fun c hc => ?_⟩
    rcases mem_place.mp hc with rfl | hc
    · exact ⟨ha, hv⟩
    · exact (wf_drop h a).2 c hc

/-- Successive writes keep the canonical form. -/
theorem wf_writeFrom {m : Memory} (h : m.wf) (a : Nat) (vs : List Byte) : (Memory.writeFrom m a vs).wf := by
  induction vs generalizing m a with
  | nil => exact h
  | cons v vs ih =>
    simp only [Memory.writeFrom]
    split
    · exact ih (wf_write h ‹_› v) _
    · exact h

/-- Every access of the machine writes within the address space, so it keeps the canonical form. -/
theorem wf_memWrite {s : State} (h : s.mem.wf) (a v : Byte) : (s.memWrite a v).mem.wf :=
  wf_write h (by omega) v

/-- The memory of `State.reset` is in the canonical form. -/
theorem wf_reset : State.reset.mem.wf := by decide

/-- A byte of memory after `MemWrite`, at any address. -/
theorem read_memWrite (s : State) (k v : Byte) (a : Nat) :
    (s.memWrite k v).mem.read a = if a = k.toNat then v else s.mem.read a :=
  read_write ..

/-- `MemRead` after `MemWrite` (R203). -/
theorem memRead_memWrite (s : State) (k v a : Byte) :
    (s.memWrite k v).memRead a = if a = k then v else s.memRead a := by
  have h : a.toNat = k.toNat ↔ a = k := BitVec.toNat_inj
  simp only [State.memRead, read_memWrite, h]

/-- An address below those written reads as before. -/
theorem read_writeFrom_below (m : Memory) (a b : Nat) (vs : List Byte) (h : b < a) :
    (Memory.writeFrom m a vs).read b = m.read b := by
  induction vs generalizing m a with
  | nil => rfl
  | cons v vs ih =>
    simp only [Memory.writeFrom]
    split
    · rw [ih _ _ (by omega), read_write_ne _ _ (by omega)]
    · rfl

end Sys2Proof.Machine
end

