-- ==== Sys2Proof/Laws/PerInstr.lean ====
section
/-! SUPPORT. A family of statements about every instruction as text: how long its encoding is (spec 30_encoding.md R300, R301). -/

namespace Sys2Proof.Laws

/-- The encoding of an instruction is its opcode byte and as many operand bytes as its format counts, under every assignment. -/
def Length.Statement (i : Instr) : Prop :=
  ∀ oc : OpcodeMap, (encodeWith oc i).head? = some (oc i.mnemonic) ∧
    (encodeWith oc i).length = i.mnemonic.format.operandCount + 1

theorem Length.hlt : Length.Statement .hlt := fun _ => ⟨rfl, rfl⟩

theorem Length.ldi (d imm : Byte) : Length.Statement (.ldi d imm) := fun _ => ⟨rfl, rfl⟩

theorem Length.mul (a b : Byte) : Length.Statement (.mul a b) := fun _ => ⟨rfl, rfl⟩

theorem Length.add (a b : Byte) : Length.Statement (.add a b) := fun _ => ⟨rfl, rfl⟩

theorem Length.prn (a : Byte) : Length.Statement (.prn a) := fun _ => ⟨rfl, rfl⟩

theorem Length.pra (a : Byte) : Length.Statement (.pra a) := fun _ => ⟨rfl, rfl⟩

theorem Length.push (a : Byte) : Length.Statement (.push a) := fun _ => ⟨rfl, rfl⟩

theorem Length.pop (d : Byte) : Length.Statement (.pop d) := fun _ => ⟨rfl, rfl⟩

theorem Length.call (a : Byte) : Length.Statement (.call a) := fun _ => ⟨rfl, rfl⟩

theorem Length.ret : Length.Statement .ret := fun _ => ⟨rfl, rfl⟩

theorem Length.jmp (a : Byte) : Length.Statement (.jmp a) := fun _ => ⟨rfl, rfl⟩

theorem Length.st (a b : Byte) : Length.Statement (.st a b) := fun _ => ⟨rfl, rfl⟩

theorem Length.iret : Length.Statement .iret := fun _ => ⟨rfl, rfl⟩

end Sys2Proof.Laws
end

