-- ==== Sys2Proof/Laws/Stack.lean ====
section
/-! SUPPORT. What a run of pushes or pops can do, and with it interrupt entry and return (spec 20_memory.md R206, 60_exceptions.md
R710, 44_control.md R603). -/

namespace Sys2Proof.Machine

/-- A byte of memory after `Push(v)` (R206). -/
theorem read_push (s : State) (v : Byte) (a : Nat) :
    (s.push v).mem.read a = if a = (s.reg sp - 1).toNat then v else s.mem.read a := by
  rw [mem_push, read_write]

/-- A byte of memory after `PushReg(r)` (R206): the register is read after the decrement. -/
theorem read_pushReg (s : State) (r : RegIdx) (a : Nat) :
    (s.pushReg r).mem.read a = if a = (s.reg sp - 1).toNat then s.decSp.reg r else s.mem.read a := by
  rw [mem_pushReg, read_write]

/-- Fields that no push touches. -/
structure SameButRegsMem (s t : State) : Prop where
  pc : t.pc = s.pc
  ir : t.ir = s.ir
  ie : t.ie = s.ie
  ov : t.ov = s.ov
  run : t.run = s.run
  out : t.out = s.out
  moves : t.moves = s.moves
  turn : t.turn = s.turn

theorem foldl_pushReg_same (rs : List RegIdx) (s : State) : SameButRegsMem s (rs.foldl State.pushReg s) := by
  induction rs generalizing s with
  | nil => exact ⟨rfl, rfl, rfl, rfl, rfl, rfl, rfl, rfl⟩
  | cons r rs ih =>
    obtain ⟨h1, h2, h3, h4, h5, h6, h7, h8⟩ := ih (s.pushReg r)
    exact ⟨h1, h2, h3, h4, h5, h6, h7, h8⟩

theorem foldl_popReg_same (rs : List RegIdx) (s : State) :
    SameButRegsMem s (rs.foldl State.popReg s) ∧ (rs.foldl State.popReg s).mem = s.mem := by
  induction rs generalizing s with
  | nil => exact ⟨⟨rfl, rfl, rfl, rfl, rfl, rfl, rfl, rfl⟩, rfl⟩
  | cons r rs ih =>
    obtain ⟨⟨h1, h2, h3, h4, h5, h6, h7, h8⟩, h9⟩ := ih (s.popReg r)
    exact ⟨⟨h1, h2, h3, h4, h5, h6, h7, h8⟩, h9⟩

/-- A run of pushes changes no register but R7, which it lowers by one for each. -/
theorem reg_foldl_pushReg (rs : List RegIdx) (s : State) (q : RegIdx) :
    (rs.foldl State.pushReg s).reg q = if q = sp then s.reg sp - BitVec.ofNat 8 rs.length else s.reg q := by
  induction rs generalizing s with
  | nil => simp +contextual
  | cons r rs ih =>
    simp only [List.foldl_cons, ih, reg_pushReg, List.length_cons, if_true]
    split
    · rw [BitVec.ofNat_add]
      generalize BitVec.ofNat 8 rs.length = n
      generalize s.reg sp = x
      bv_omega
    · rfl

/-- A run of pushes leaves every byte as it was that is none of the slots below R7. -/
theorem read_foldl_pushReg (rs : List RegIdx) (s : State) (a : Nat)
    (h : ∀ k, k < rs.length → a ≠ (s.reg sp - BitVec.ofNat 8 (k + 1)).toNat) :
    (rs.foldl State.pushReg s).mem.read a = s.mem.read a := by
  induction rs generalizing s with
  | nil => rfl
  | cons r rs ih =>
    rw [List.foldl_cons, ih]
    · have h0 : a ≠ (s.reg sp - 1).toNat := h 0 (by simp)
      rw [read_pushReg, if_neg h0]
    · intro k hk
      rw [reg_pushReg, if_pos rfl]
      have := h (k + 1) (by simpa using hk)
      rwa [show s.reg sp - BitVec.ofNat 8 (k + 1 + 1) = s.reg sp - 1 - BitVec.ofNat 8 (k + 1) by
        rw [BitVec.ofNat_add (k + 1)]
        generalize BitVec.ofNat 8 (k + 1) = n
        generalize s.reg sp = x
        bv_omega] at this

theorem wf_push {s : State} (h : s.mem.wf) (v : Byte) : (s.push v).mem.wf := by
  rw [mem_push]; exact wf_write h (by omega) v

theorem wf_pushReg {s : State} (h : s.mem.wf) (r : RegIdx) : (s.pushReg r).mem.wf := by
  rw [mem_pushReg]; exact wf_write h (by omega) _

theorem wf_foldl_pushReg (rs : List RegIdx) {s : State} (h : s.mem.wf) : (rs.foldl State.pushReg s).mem.wf := by
  induction rs generalizing s with
  | nil => exact h
  | cons r rs ih => exact ih (wf_pushReg h r)

/-! ### Interrupt entry (R710) -/

/-- The registers after entry: R7 is nine lower and bit `i` of IS is clear. -/
theorem reg_interruptEntry (s : State) (i : Line) (q : RegIdx) :
    (s.interruptEntry i).reg q =
      if q = sp then s.reg sp - 9 else if q = is then s.reg is &&& ~~~ lineBit i else s.reg q := by
  simp only [State.interruptEntry, reg_setPc, reg_foldl_pushReg, reg_push, reg_setIe, reg_setReg]
  by_cases hq : q = sp
  · subst hq
    simp only [if_true, if_neg (show sp ≠ is by decide), pushOrder, List.length_cons, List.length_nil]
    generalize s.reg sp = x
    bv_omega
  · simp [hq]

/-- Entry goes to the handler whose address stands in vector entry `i` once the frame is pushed (R712). -/
theorem pc_interruptEntry (s : State) (i : Line) :
    (s.interruptEntry i).pc = (s.interruptEntry i).memRead (vectorAddress i) := rfl

@[simp] theorem ie_interruptEntry (s : State) (i : Line) : (s.interruptEntry i).ie = false := by
  simp [State.interruptEntry, (foldl_pushReg_same _ _).ie]

@[simp] theorem ir_interruptEntry (s : State) (i : Line) : (s.interruptEntry i).ir = s.ir := by
  simp [State.interruptEntry, (foldl_pushReg_same _ _).ir]

@[simp] theorem ov_interruptEntry (s : State) (i : Line) : (s.interruptEntry i).ov = s.ov := by
  simp [State.interruptEntry, (foldl_pushReg_same _ _).ov]

@[simp] theorem run_interruptEntry (s : State) (i : Line) : (s.interruptEntry i).run = s.run := by
  simp [State.interruptEntry, (foldl_pushReg_same _ _).run]

@[simp] theorem out_interruptEntry (s : State) (i : Line) : (s.interruptEntry i).out = s.out := by
  simp [State.interruptEntry, (foldl_pushReg_same _ _).out]

@[simp] theorem moves_interruptEntry (s : State) (i : Line) : (s.interruptEntry i).moves = s.moves := by
  simp [State.interruptEntry, (foldl_pushReg_same _ _).moves]

@[simp] theorem turn_interruptEntry (s : State) (i : Line) : (s.interruptEntry i).turn = s.turn := by
  simp [State.interruptEntry, (foldl_pushReg_same _ _).turn]

theorem wf_interruptEntry {s : State} (h : s.mem.wf) (i : Line) : (s.interruptEntry i).mem.wf := by
  simp only [State.interruptEntry, mem_setPc]
  exact wf_foldl_pushReg _ (wf_push (by simpa using h) _)

/-! ### Return from an interrupt (R603) -/

/-- The registers after the return: R7 is popped first and ends nine above the byte popped into it; the others are popped
from the bytes above that byte's address, R6 lowest. -/
theorem reg_interruptReturn (s : State) (r : RegIdx) :
    s.interruptReturn.reg r =
      if r = sp then s.memRead (s.reg sp) + 9
      else s.memRead (s.memRead (s.reg sp) + 1 + BitVec.ofNat 8 (6 - r.val)) := by
  simp only [State.interruptReturn, popOrder, List.foldl, reg_setIe, reg_popPc, reg_popReg, memRead_popReg]
  fin_cases r <;> simp [sp, BitVec.add_assoc]

/-- The return goes to the byte above the popped registers. -/
theorem pc_interruptReturn (s : State) : s.interruptReturn.pc = s.memRead (s.memRead (s.reg sp) + 8) := by
  simp only [State.interruptReturn, popOrder, List.foldl, pc_setIe, pc_popPc, reg_popReg, memRead_popReg]
  simp [sp, BitVec.add_assoc]

@[simp] theorem ie_interruptReturn (s : State) : s.interruptReturn.ie = true := rfl

@[simp] theorem mem_interruptReturn (s : State) : s.interruptReturn.mem = s.mem := by
  simp [State.interruptReturn, (foldl_popReg_same _ _).2]

@[simp] theorem ir_interruptReturn (s : State) : s.interruptReturn.ir = s.ir := by
  simp [State.interruptReturn, (foldl_popReg_same _ _).1.ir]

@[simp] theorem ov_interruptReturn (s : State) : s.interruptReturn.ov = s.ov := by
  simp [State.interruptReturn, (foldl_popReg_same _ _).1.ov]

@[simp] theorem run_interruptReturn (s : State) : s.interruptReturn.run = s.run := by
  simp [State.interruptReturn, (foldl_popReg_same _ _).1.run]

@[simp] theorem out_interruptReturn (s : State) : s.interruptReturn.out = s.out := by
  simp [State.interruptReturn, (foldl_popReg_same _ _).1.out]

@[simp] theorem moves_interruptReturn (s : State) : s.interruptReturn.moves = s.moves := by
  simp [State.interruptReturn, (foldl_popReg_same _ _).1.moves]

@[simp] theorem turn_interruptReturn (s : State) : s.interruptReturn.turn = s.turn := by
  simp [State.interruptReturn, (foldl_popReg_same _ _).1.turn]

end Sys2Proof.Machine
end

