-- ==== Sys2Proof/Laws/Step.lean ====
section
/-! SUPPORT. Everything a step can do (spec 40_cycle_engine.md R401, R410, 60_exceptions.md R715, R723). -/

namespace Sys2Proof.Machine

/-- What one cycle can do from `s`: the service of the interrupt that is due, one instruction, or the fault-stop of bytes that do
not decode. -/
inductive CycleTo (oc : OpcodeMap) (s t : State) : Prop where
  | entry (i : Line) (due : s.interruptDue = some i) (result : t = s.interruptEntry i)
  | instr (i : Instr) (rest : List Byte) (quiet : s.interruptDue = none) (decodes : decodeWith oc s.fetchBytes = .ok (i, rest))
      (runs : exec i s.fetchOpcode = .next t)
  | illegal (e : DecodeError) (quiet : s.interruptDue = none) (refused : decodeWith oc s.fetchBytes = .error e)
      (result : t = s.fetchOpcode.raiseFault (decodeFault e))

theorem cycleWith_cases {oc : OpcodeMap} {s t : State} (h : s.cycleWith oc = .next t) : CycleTo oc s t := by
  unfold State.cycleWith at h
  split at h
  · exact .entry _ ‹_› (Host.Outcome.next.inj h).symm
  · unfold State.fetchExecuteWith at h
    split at h
    · exact .instr _ _ ‹_› ‹_› h
    · exact .illegal _ ‹_› ‹_› (Host.Outcome.next.inj h).symm

/-- What one step can do: a cycle, or an event from outside the CORE, as the host's next move asks. -/
inductive StepTo (oc : OpcodeMap) (host : HostSchedule) (s t : State) : Prop where
  | cycle (asked : s.nextMoveWith host = .cycle) (result : CycleTo oc s.takeMove t)
  | timer (asked : s.nextMoveWith host = .timerEvent) (result : t = s.takeMove.raiseTimerEvent)
  | line (i : Line) (asked : s.nextMoveWith host = .raiseLine i) (wired : lineWired i = true)
      (result : t = s.takeMove.raiseLine i)

theorem stepWith_cases {oc : OpcodeMap} {host : HostSchedule} {s t : State} (h : s.stepWith oc host = .next t) :
    s.run = .running ∧ StepTo oc host s t := by
  unfold State.stepWith at h
  split at h
  · refine ⟨‹_›, ?_⟩
    unfold State.moveWith at h
    split at h
    · exact .cycle ‹_› (cycleWith_cases h)
    · exact .timer ‹_› (Host.Outcome.next.inj h).symm
    · split at h
      · exact .line _ ‹_› ‹_› (Host.Outcome.next.inj h).symm
      · cases h
  · cases h
  · cases h

/-- Everything a step can do, under the default assignment. -/
theorem step_cases {s t : State} (h : step s = .next t) : s.run = .running ∧ StepTo defaultOpcode Config.hostMove s t :=
  stepWith_cases h

/-- A listed move is the next one, whatever the schedule. -/
@[simp] theorem nextMoveWith_cons (host : HostSchedule) (s : State) (m : HostMove) (ms : List HostMove) :
    (s.setMoves (m :: ms)).nextMoveWith host = m := rfl

theorem nextMoveWith_nil {s : State} (host : HostSchedule) (h : s.moves = []) :
    s.nextMoveWith host = scheduledMove host s.turn := by
  simp [State.nextMoveWith, h]

/-- A schedule names no line that is not wired. -/
theorem lineWired_of_scheduledMove {host : HostSchedule} {n : Nat} {i : Line} (h : scheduledMove host n = .raiseLine i) :
    lineWired i = true := by
  unfold scheduledMove at h
  split at h
  · cases h
  · cases h
  · split at h
    · cases h
      assumption
    · cases h

/-- A running machine whose next move is a cycle makes that cycle. -/
theorem stepWith_cycle {oc : OpcodeMap} {host : HostSchedule} {s : State} (hrun : s.run = .running)
    (h : s.nextMoveWith host = .cycle) : s.stepWith oc host = s.takeMove.cycleWith oc := by
  simp [State.stepWith, hrun, State.moveWith, h]

/-- The byte at PC is the first that is fetched (R300). -/
theorem fetchBytes_eq (s : State) :
    s.fetchBytes = s.memRead s.pc ::
      (if s.pc.toNat + 1 ≤ 0xFF then [s.mem.read (s.pc.toNat + 1)] else []) ++
      (if s.pc.toNat + 2 ≤ 0xFF then [s.mem.read (s.pc.toNat + 2)] else []) := by
  have h0 : s.pc.toNat ≤ 0xFF := by omega
  unfold State.fetchBytes State.memRead
  by_cases h1 : s.pc.toNat + 1 ≤ 0xFF <;> by_cases h2 : s.pc.toNat + 2 ≤ 0xFF
  all_goals simp [h0, h1, h2]

end Sys2Proof.Machine
end

