-- ==== Sys2Proof/Tests/Slice0.lean ====
section
/-! SUPPORT. Tests on the spec's own vectors (95_test_vectors.md; V<n> and E<n> name its rows), and for every statement with hypotheses a
state and operands that meet them. -/

namespace Sys2Proof.Tests

open Sys2Proof.Machine

/-- The reset state with registers set, PC at `pc`, bytes placed there, and a cycle as the host's next move. -/
def boot (pc : Byte) (bytes : List Byte) (regs : List (RegIdx × Byte)) : State :=
  ((regs.foldl (fun s r => s.setReg r.1 r.2) (State.reset.setPc pc)).placeAtPc bytes).setMoves [.cycle]

/-- A check on the next state, false where there is none. -/
def holds (o : Host.Outcome State Fault Refusal) (p : State → Bool) : Bool :=
  match o with
  | .next t => p t
  | .fault _ => false
  | .refused _ => false

/-! ### Well-formedness: an ill-formed term for each register operand (R302) -/

theorem test_wf_accepts : (Instr.ldi 7 0xFF).WellFormed ∧ (Instr.st 0 7).WellFormed ∧ Instr.hlt.WellFormed := by decide

theorem test_wf_refuses_ldi : ¬ (Instr.ldi 8 0x00).WellFormed := by decide

theorem test_wf_refuses_mul : ¬ (Instr.mul 8 0).WellFormed ∧ ¬ (Instr.mul 0 8).WellFormed := by decide

theorem test_wf_refuses_add : ¬ (Instr.add 9 0).WellFormed ∧ ¬ (Instr.add 0 9).WellFormed := by decide

theorem test_wf_refuses_st : ¬ (Instr.st 0xFF 0).WellFormed ∧ ¬ (Instr.st 0 0xFF).WellFormed := by decide

theorem test_wf_refuses_one_register :
    ¬ (Instr.prn 8).WellFormed ∧ ¬ (Instr.pra 8).WellFormed ∧ ¬ (Instr.push 8).WellFormed ∧ ¬ (Instr.pop 8).WellFormed ∧
      ¬ (Instr.call 8).WellFormed ∧ ¬ (Instr.jmp 8).WellFormed := by decide

/-! ### Decoding: every constructor's word, written from R301 and R304 -/

theorem test_decode_hlt : decode [0b00000001] = .ok (.hlt, []) := by decide

theorem test_decode_ldi : decode [0b10011001, 0b00000011, 0b11111111] = .ok (.ldi 3 0xFF, []) := by decide

theorem test_decode_mul : decode [0b10101010, 0b00000000, 0b00000001] = .ok (.mul 0 1, []) := by decide

theorem test_decode_add : decode [0b10101000, 0b00000010, 0b00000011] = .ok (.add 2 3, []) := by decide

theorem test_decode_prn : decode [0b01000011, 0b00000111] = .ok (.prn 7, []) := by decide

theorem test_decode_pra : decode [0b01000010, 0b00000011] = .ok (.pra 3, []) := by decide

theorem test_decode_push : decode [0b01001101, 0b00000000] = .ok (.push 0, []) := by decide

theorem test_decode_pop : decode [0b01001100, 0b00000100] = .ok (.pop 4, []) := by decide

theorem test_decode_call : decode [0b01001000, 0b00000001] = .ok (.call 1, []) := by decide

theorem test_decode_ret : decode [0b00001001] = .ok (.ret, []) := by decide

theorem test_decode_jmp : decode [0b01010000, 0b00000010] = .ok (.jmp 2, []) := by decide

theorem test_decode_st : decode [0b10011010, 0b00000001, 0b00000000] = .ok (.st 1 0, []) := by decide

theorem test_decode_iret : decode [0b00001011] = .ok (.iret, []) := by decide

/-- The operand byte is not masked (R302) and the bytes after the instruction are left (R300). -/
theorem test_decode_unmasked : decode [0x43, 0x89, 0x01] = .ok (.prn 0x89, [0x01]) := by decide

/-- V43: an undecodable opcode. -/
theorem test_decode_unknown : decode [0xFF] = .error .unknownOpcode := by decide

theorem test_decode_missing : decode [0x99, 0x00] = .error .missingByte := by decide

/-- The table's numbering: byte 0 lowest; operand bits the table does not give are 0. -/
theorem test_table_word : decodeTableWord 24 0xFF0399 = some (.ldi 3 0xFF) ∧ decodeTableWord 8 0x9A = some (.st 0 0) := by
  decide

/-! ### One step on the spec's vectors -/

/-- V49: HLT at 0xFF. -/
theorem test_hlt_at_top : holds (step (boot 0xFF [0x01] [])) (fun t => t.run = .halted && t.pc == 0xFF) = true := by decide

/-- V1. -/
theorem test_ldi : holds (step (boot 0x00 [0x99, 0x03, 0xFF] [])) (fun t => t.reg 3 == 0xFF && t.pc == 3) = true := by decide

/-- V44. -/
theorem test_ldi_bad_register :
    holds (step (boot 0x00 [0x99, 0x08, 0x01] [])) (fun t => t.run = .faulted .badRegister 0x00 0x99) = true := by decide

/-- V9. -/
theorem test_mul_wraps : holds (step (boot 0x00 [0xAA, 0, 1] [(0, 255), (1, 255)])) (fun t => t.reg 0 == 1) = true := by decide

/-- V10: the source is the destination. -/
theorem test_mul_squares : holds (step (boot 0x00 [0xAA, 0, 0] [(0, 20)])) (fun t => t.reg 0 == 144) = true := by decide

/-- V3. -/
theorem test_add_wraps :
    holds (step (boot 0x00 [0xA8, 0, 1] [(0, 250), (1, 10)])) (fun t => t.reg 0 == 4 && t.reg 1 == 10) = true := by decide

/-- V47. -/
theorem test_add_pc_overflow :
    holds (step (boot 0xFD [0xA8, 0, 0] [])) (fun t => t.run = .faulted .pcOverflow 0xFD 0xA8) = true := by decide

/-- V15. -/
theorem test_prn : holds (step (boot 0x00 [0x43, 7] [])) (fun t => t.out = [.dec 248] && t.pc == 2) = true := by decide

/-- V50: BadRegister before PcOverflow. -/
theorem test_prn_fault_order :
    holds (step (boot 0xFE [0x43, 9] [])) (fun t => t.run = .faulted .badRegister 0xFE 0x43) = true := by decide

/-- V16. -/
theorem test_pra : holds (step (boot 0x00 [0x42, 3] [(3, 72)])) (fun t => t.out = [.chr 72]) = true := by decide

/-- V19: PUSH R7 pushes the lowered R7. -/
theorem test_push_sp :
    holds (step (boot 0x00 [0x4D, 7] [])) (fun t => t.reg 7 == 0xF7 && t.memRead 0xF7 == 0xF7) = true := by decide

/-- V20: the push wraps into the vector table. -/
theorem test_push_wraps :
    holds (step (boot 0x00 [0x4D, 0] [(0, 0x55), (7, 0x00)])) (fun t => t.reg 7 == 0xFF && t.memRead 0xFF == 0x55) = true := by
  decide

/-- V21. -/
theorem test_pop :
    holds (step ((boot 0x00 [0x4C, 4] [(7, 0xF7)]).memWrite 0xF7 0x2A)) (fun t => t.reg 4 == 0x2A && t.reg 7 == 0xF8) = true := by
  decide

/-- V22: POP R7 ends as the popped byte plus one. -/
theorem test_pop_sp :
    holds (step ((boot 0x00 [0x4C, 7] [(7, 0xF7)]).memWrite 0xF7 0x10)) (fun t => t.reg 7 == 0x11) = true := by decide

/-- V30: CALL R7. -/
theorem test_call_sp :
    holds (step (boot 0x06 [0x48, 7] [])) (fun t => t.reg 7 == 0xF7 && t.memRead 0xF7 == 0x08 && t.pc == 0xF7) = true := by
  decide

/-- V48. -/
theorem test_call_pc_overflow :
    holds (step (boot 0xFE [0x48, 0] [(0, 0x10)]))
      (fun t => t.run = .faulted .pcOverflow 0xFE 0x48 && t.reg 7 == 0xF8) = true := by decide

/-- V32: RET from the empty stack. -/
theorem test_ret : holds (step ((boot 0x00 [0x09] []).memWrite 0xF8 0x33)) (fun t => t.pc == 0x33 && t.reg 7 == 0xF9) = true := by
  decide

/-- V28: JMP at 0xFE has no successor check. -/
theorem test_jmp_at_top : holds (step (boot 0xFE [0x50, 0] [])) (fun t => t.pc == 0x00 && t.run = .running) = true := by decide

/-- V26: an ST that overwrites its own second operand byte stores what it read. -/
theorem test_st_self_modifying :
    holds (step (boot 0x10 [0x9A, 0x00, 0x01] [(0, 0x12), (1, 0x05)])) (fun t => t.memRead 0x12 == 0x05 && t.pc == 0x13) = true := by
  decide

/-- V33: the frame of program P4. -/
def frameP4 : State :=
  { boot 0x25 [0x0B] [(7, 0xEF)] with
    ie := false
    mem := Memory.writeFrom [(0x25, 0x0B)] 0xEF [0xEF, 0x00, 0x01, 0x00, 0x00, 0x00, 0xF8, 0x20, 0x0C] }

theorem test_iret :
    holds (step frameP4) (fun t => t.regs = #v[0x20, 0xF8, 0, 0, 0, 1, 0, 0xF8] && t.pc == 0x0C && t.ie) = true := by decide

/-- V34: IRET outside a handler. -/
theorem test_iret_outside : holds (exec .iret State.reset) (fun t => t.reg 7 == 0x09 && t.pc == 0x00 && t.ie) = true := by decide

/-- V46. -/
theorem test_operand_out_of_range :
    holds (step (boot 0xFE [0x99, 0x00] [])) (fun t => t.run = .faulted .operandOutOfRange 0xFE 0x99) = true := by decide

/-- V43: nothing but IR and the run state changes. -/
theorem test_unknown_opcode :
    holds (step (boot 0x00 [0xFF] []))
      (fun t => t = { boot 0x00 [0xFF] [] with moves := [], ir := 0xFF, run := .faulted .unknownOpcode 0x00 0xFF }) = true := by decide

/-! ### Interrupts (V35..V42) -/

/-- The state of V35, with HLT at PC (V42). -/
def dueLine0 : State :=
  (boot 0x0C [0x01] [(0, 0x20), (1, 0xF8), (5, 0x01), (6, 0x01)]).memWrite 0xF8 0x20

/-- V35, V42: entry on line 0, not HLT. -/
theorem test_entry :
    holds (step dueLine0) (fun t => t.reg 6 == 0 && !t.ie && t.memRead 0xF7 == 0x0C && t.memRead 0xF6 == 0x20 &&
      t.memRead 0xF0 == 0x00 && t.memRead 0xEF == 0xEF && t.reg 7 == 0xEF && t.pc == 0x20 && t.run = .running) = true := by
  decide

/-- V36. -/
theorem test_entry_masked : holds (step (boot 0 [0x01] [(5, 0x04), (6, 0x06)])) (fun t => t.reg 6 == 0x02 && !t.ie) = true := by
  decide

/-- V37. -/
theorem test_entry_priority : holds (step (boot 0 [0x01] [(5, 0xFF), (6, 0xFF)])) (fun t => t.reg 6 == 0xFE) = true := by decide

/-- V38: nothing is serviced while `ie` is false. -/
theorem test_no_entry_while_disabled :
    holds (step ((boot 0 [0x99, 0, 5] [(5, 0x01), (6, 0x01)]).setIe false))
      (fun t => t.reg 0 == 5 && t.reg 6 == 0x01 && t.pc == 3) = true := by decide

/-- V40, and a cycle after the events. -/
theorem test_timer_event :
    holds (step (State.reset.setMoves [.timerEvent, .cycle])) (fun t => t.reg 6 == 0x01 && t.moves = [.cycle]) = true := by decide

/-- R723, R808: the schedule gives the move where none is listed, and taking it advances the turn; R704: a line 0 it names is no event. -/
theorem test_schedule :
    State.reset.nextMoveWith (fun n => if n = 0 then .timerEvent else .cycle) = .timerEvent ∧
      State.reset.takeMove.nextMoveWith (fun n => if n = 0 then .timerEvent else .cycle) = .cycle ∧
      State.reset.nextMoveWith (fun _ => .raiseLine 0) = .cycle := by decide

/-- R216: a word placed where the first step from reset fetches runs then (V1). -/
theorem test_with_fetch_word :
    holds (step (State.reset.withFetchWord 24 0xFF0399)) (fun t => t.reg 3 == 0xFF && t.pc == 3) = true := by decide

/-- R311: hexadecimal letters of both cases, and a letter past F is no digit. -/
theorem test_digits : digitValue '0' = some 0 ∧ digitValue '9' = some 9 ∧ digitValue 'A' = some 10 ∧ digitValue 'f' = some 15 ∧
    digitValue 'G' = none := by decide

/-- V51: no cycle and no timer event once halted. -/
theorem test_halted_no_move : holds (step ((State.reset.setRun .halted).setMoves [.timerEvent])) (fun _ => true) = false := by
  decide

/-- R451: an unsupported selector. -/
theorem test_alu_unsupported : alu (.other 3) 1 2 = .error .aluUnsupported := by decide

/-- R700: the code numbers. -/
theorem test_fault_codes :
    [FaultReason.unknownOpcode, .operandOutOfRange, .badRegister, .pcOverflow, .aluUnsupported].map FaultReason.code =
      [1, 2, 3, 4, 5] := by decide

/-! ### Assembler text (R311; the source's example of E8 and the bytes of program P1) -/

theorem test_assemble_example :
    assembleWith defaultOpcode
      ['L', 'D', 'I', ' ', 'R', '0', ',', '8', ';', ' ', 'M', 'U', 'L', ' ', 'R', '0', ',', 'R', '1', ';', ' ',
        'P', 'R', 'N', ' ', 'R', '0', ';', ' ', 'H', 'L', 'T'] =
      some [0x99, 0, 8, 0xAA, 0, 1, 0x43, 0, 0x01] := by decide

theorem test_assemble_names_and_hex :
    assembleWith defaultOpcode ['L', 'D', 'I', ' ', 'S', 'P', ',', ' ', '0', 'x', '8', '0', '\n'] = some [0x99, 7, 0x80] := by
  decide

theorem test_assemble_refuses : assembleWith defaultOpcode ['L', 'D', 'I', ' ', 'R', '8', ',', '1'] = none := by decide

/-! ### Witnesses: the hypotheses of each statement are met together -/

theorem test_wit_DecodeOfEncode : Function.Injective defaultOpcode := defaultOpcode_injective

theorem test_wit_EncodeOfDecode : decodeWith defaultOpcode [0x99, 0x03, 0xFF, 0x01] = .ok (.ldi 3 0xFF, [0x01]) := by decide

theorem test_wit_TruncatedInstructionRefused :
    Function.Injective defaultOpcode ∧ 2 < (encodeWith defaultOpcode (.ldi 3 0xFF)).length :=
  ⟨defaultOpcode_injective, by decide⟩

theorem test_wit_DecodeIsTableLookup :
    Function.Injective defaultOpcode ∧ defaultOpcode .st = 0x9A ∧
      Mnemonic.st.format.operandCount ≤ ([1, 0] : List Byte).length :=
  ⟨defaultOpcode_injective, by decide⟩

theorem test_wit_AssemblyOfInstructionText : (Instr.ldi 7 0xFF).WellFormed ∧ (Instr.st 7 0).WellFormed := by decide

theorem test_wit_StepKeepsInv : (boot 0 [0x01] []).Inv ∧ ∃ t, step (boot 0 [0x01] []) = .next t :=
  ⟨⟨by decide, rfl, trivial⟩, _, rfl⟩

theorem test_wit_StepIsOneMove : State.reset.run = .running := rfl

theorem test_wit_StepRunsDecodedInstruction :
    let s := boot 0xFC [0xA8, 0, 1] [(5, 0x01), (6, 0x02)]
    s.run = .running ∧ s.nextMove = .cycle ∧ s.ie = true ∧ s.reg 6 &&& s.reg 5 = 0 ∧ decode s.fetchBytes = .ok (.add 0 1, []) := by
  decide

theorem test_wit_StepRunsPlacedInstruction :
    let s := boot 0xFD [0x9A, 7, 1] []
    s.run = .running ∧ s.nextMove = .cycle ∧ (s.ie = true → s.reg 6 &&& s.reg 5 = 0) ∧
      s.pc.toNat + (Instr.st 7 1).operandBytes.length ≤ 0xFF ∧
      s.mem.read 0xFD = 0x9A ∧ s.mem.read 0xFE = 7 ∧ s.mem.read 0xFF = 1 ∧ encode (.st 7 1) = [0x9A, 7, 1] := by decide

theorem test_wit_UnknownOpcodeFaultStops :
    let s := boot 0xFF [0x00] []
    s.run = .running ∧ s.nextMove = .cycle ∧ (s.ie = true → s.reg 6 &&& s.reg 5 = 0) ∧
      ∀ m ∈ Mnemonic.all, defaultOpcode m ≠ s.mem.read s.pc.toNat := by decide

theorem test_wit_OperandBeyondTopFaultStops :
    let s := boot 0xFE [0x9A, 0] []
    let u := boot 0xFF [0x50] []
    s.run = .running ∧ s.nextMove = .cycle ∧ (s.ie = true → s.reg 6 &&& s.reg 5 = 0) ∧ defaultOpcode .st = s.mem.read s.pc.toNat ∧
      0xFF < s.pc.toNat + Mnemonic.st.format.operandCount ∧ u.run = .running ∧ u.nextMove = .cycle ∧
      (u.ie = true → u.reg 6 &&& u.reg 5 = 0) ∧ defaultOpcode .jmp = u.mem.read u.pc.toNat ∧
      0xFF < u.pc.toNat + Mnemonic.jmp.format.operandCount := by decide

theorem test_wit_InterruptCheckStartsCycle :
    (dueLine0.ie = true ∧ dueLine0.reg 6 &&& dueLine0.reg 5 ≠ 0) ∧
      ¬ (State.reset.ie = true ∧ State.reset.reg 6 &&& State.reset.reg 5 ≠ 0) := by decide

theorem test_wit_LowestLineIsServiced :
    dueLine0.ie = true ∧ (dueLine0.reg 6 &&& dueLine0.reg 5).getLsbD (0 : Line).val = true ∧
      ∀ j : Line, j < 0 → (dueLine0.reg 6 &&& dueLine0.reg 5).getLsbD j.val = false := by decide

theorem test_wit_TimerEventSetsBitZero : dueLine0.run = .running := by decide

theorem test_wit_RaisedLineSetsItsBit : dueLine0.run = .running := by decide

theorem test_wit_results_three_bytes : (boot 0xFC [] []).pc.toNat ≤ 0xFC := by decide

theorem test_wit_results_two_bytes : (boot 0xFD [] []).pc.toNat ≤ 0xFD := by decide

theorem test_wit_JmpResult : (boot 0xFE [] []).pc.toNat ≤ 0xFE := by decide

theorem test_wit_FrameRegisterDestination :
    (∃ t, exec (.ldi 0 9) State.reset = .next t) ∧ (∃ t, exec (.add 0 9) State.reset = .next t) ∧
      ∃ t, exec (.mul 7 1) State.reset = .next t :=
  ⟨⟨_, rfl⟩, ⟨_, rfl⟩, ⟨_, rfl⟩⟩

theorem test_wit_FrameOutput : (∃ t, exec (.prn 7) State.reset = .next t) ∧ ∃ t, exec (.pra 8) State.reset = .next t :=
  ⟨⟨_, rfl⟩, ⟨_, rfl⟩⟩

theorem test_wit_FrameStore : ∃ t, exec (.st 7 1) State.reset = .next t := ⟨_, rfl⟩

theorem test_wit_FrameStackWrite : (∃ t, exec (.push 7) State.reset = .next t) ∧ ∃ t, exec (.call 1) State.reset = .next t :=
  ⟨⟨_, rfl⟩, ⟨_, rfl⟩⟩

theorem test_wit_FramePopAndJump : (∃ t, exec (.pop 7) State.reset = .next t) ∧ ∃ t, exec (.jmp 7) State.reset = .next t :=
  ⟨⟨_, rfl⟩, ⟨_, rfl⟩⟩

theorem test_wit_OperandChecksInOrder :
    0xFF < (boot 0xFF [] []).pc.toNat + (Instr.prn 9).operandBytes.length ∧
    (¬ 0xFF < (boot 0xFE [] []).pc.toNat + (Instr.prn 9).operandBytes.length ∧ ∃ b ∈ (Instr.prn 9).registerBytes, 7 < b.toNat) ∧
    (¬ 0xFF < (boot 0xFE [] []).pc.toNat + (Instr.prn 7).operandBytes.length ∧
      (¬ ∃ b ∈ (Instr.prn 7).registerBytes, 7 < b.toNat) ∧
      0xFF < (boot 0xFE [] []).pc.toNat + (Instr.prn 7).operandBytes.length + 1) ∧
    ¬ 0xFF < (boot 0xFD [] []).pc.toNat + (Instr.prn 7).operandBytes.length + 1 := by decide

theorem test_wit_RunStateChangeWritesNothingElse :
    holds (exec .hlt State.reset) (fun t => t.run ≠ State.reset.run) = true ∧
      holds (exec (.push 8) State.reset) (fun t => t.run ≠ State.reset.run) = true := by decide

theorem test_wit_VectorLookup : ∀ k : Fin 9, 0xF8 + (0 : Line).val ≠ (State.reset.reg 7 - 1 - BitVec.ofNat 8 k.val).toNat := by
  decide

theorem test_wit_IretUndoesEntry :
    (dueLine0.interruptEntry 0).reg 7 = dueLine0.reg 7 - 9 ∧
      ∀ k : Fin 9, (dueLine0.interruptEntry 0).memRead (dueLine0.reg 7 - 1 - BitVec.ofNat 8 k.val) =
        (dueLine0.interruptEntry 0).memRead (dueLine0.reg 7 - 1 - BitVec.ofNat 8 k.val) :=
  ⟨by decide, fun _ => rfl⟩

theorem test_wit_PushThenPop : (0 : RegIdx) ≠ 7 ∧ (4 : RegIdx) ≠ 7 ∧ (boot 0xFB [] []).pc.toNat ≤ 0xFB := by decide

theorem test_wit_CallThenRet :
    (boot 0xFD [] []).pc.toNat ≤ 0xFD ∧ ∃ t v : State, exec (.call (regByte 1)) (boot 0xFD [] []) = .next t ∧ v.reg 7 = t.reg 7 ∧
      v.memRead (t.reg 7) = t.memRead (t.reg 7) :=
  ⟨by decide, _, _, rfl, rfl, rfl⟩

theorem test_wit_IeWritersAndReaders :
    holds (exec .iret (State.reset.setIe false)) (fun t => t.ie) = true ∧
      holds (exec .ret (State.reset.setIe false)) (fun t => !t.ie) = true := by decide

theorem test_wit_IeWritersAndReaders_step :
    holds (step frameP4) (fun t => t.ie) = true ∧ holds (step dueLine0) (fun t => !t.ie) = true ∧
      holds (step ((boot 0 [0xFF] []).setIe false)) (fun t => !t.ie && t.run ≠ .running) = true ∧
      frameP4.reg 6 &&& frameP4.reg 5 = 0 ∧ (dueLine0.setMoves [.timerEvent]).nextMove ≠ .cycle := by decide

theorem test_wit_IrIsNotObserved :
    (dueLine0.ie = true ∧ dueLine0.reg 6 &&& dueLine0.reg 5 ≠ 0) ∧
      ¬ (State.reset.ie = true ∧ State.reset.reg 6 &&& State.reset.reg 5 ≠ 0) := by decide

theorem test_wit_MaskWriters : holds (step (boot 0 [0x99, 5, 1] [])) (fun t => t.reg 5 ≠ State.reset.reg 5) = true := by decide

theorem test_wit_StatusWriters :
    holds (step dueLine0) (fun t => t.reg 6 ≠ dueLine0.reg 6) = true ∧
      holds (step (State.reset.setMoves [.timerEvent])) (fun t => t.reg 6 ≠ State.reset.reg 6) = true ∧
      holds (step (boot 0 [0x99, 6, 1] [])) (fun t => t.reg 6 ≠ State.reset.reg 6) = true := by decide

theorem test_wit_MemoryWriters :
    holds (step dueLine0) (fun t => t.mem.read 0xF7 ≠ dueLine0.mem.read 0xF7) = true ∧
      holds (step (boot 0 [0x9A, 7, 7] [])) (fun t => t.mem.read 0xF8 ≠ (boot 0 [0x9A, 7, 7] []).mem.read 0xF8) = true := by
  decide

theorem test_wit_OnlyCyclesMakeProgress :
    State.reset.nextMoveWith (fun _ => .timerEvent) ≠ .cycle ∧
      holds (State.reset.stepWith defaultOpcode fun _ => .timerEvent) (fun t => t.reg 6 == 0x01 && t.turn == 1) = true ∧
      State.reset.run = .running ∧ State.reset.nextMoveWith (fun _ => .cycle) = .cycle := by decide

/-- A placement in which every second turn is a timer event, without end, is fair. -/
theorem test_wit_FairHostReachesCycle :
    FairHost (fun n => if n % 2 = 0 then .timerEvent else .cycle) ∧ State.reset.run = .running ∧
      ∀ i, .raiseLine i ∈ State.reset.moves → lineWired i = true := by
  refine ⟨fun n => ⟨n + 1, ?_⟩, rfl, fun i h => nomatch h⟩
  have h : (n + (n + 1)) % 2 = 1 := by omega
  simp [h]

theorem test_wit_OutputWriters : holds (step (boot 0 [0x43, 7] [])) (fun t => t.out ≠ []) = true := by decide

theorem test_wit_PcAfterInstruction :
    ([.ldi 0 1, .mul 0 1, .add 0 1, .st 7 1] : List Instr).all
        (fun i => holds (exec i (boot 0xFC [] [])) fun t => t.run = .running) = true ∧
      ([.prn 0, .pra 0, .push 0, .pop 0, .call 1] : List Instr).all
        (fun i => holds (exec i (boot 0xFD [] [])) fun t => t.run = .running) = true ∧
      holds (exec (.jmp 7) (boot 0xFE [] [])) (fun t => t.run = .running) = true ∧
      ([.ret, .iret] : List Instr).all (fun i => holds (exec i (boot 0xFF [] [])) fun t => t.run = .running) = true ∧
      holds (exec .hlt (boot 0xFF [] [])) (fun t => t.run = .halted) = true := by decide

theorem test_wit_RunStateTransitions :
    holds (step (boot 0 [0x01] [])) (fun t => t.run = .halted) = true ∧
      holds (step (boot 0 [] [])) (fun t => t.run = .faulted .unknownOpcode 0 0) = true ∧
      holds (step dueLine0) (fun t => t.run = .running) = true := by decide

end Sys2Proof.Tests
end

/-! ### Interrupt enable: who writes `ie` and who reads it (spec 10_state.md R109) -/

namespace Sys2Proof.Machine

/-! #### Outcomes, the fetch and the interrupt check -/

@[simp] theorem mapNext_next (f : State → State) (t : State) : mapNext f (.next t) = .next (f t) := rfl

@[simp] theorem mapNext_fault (f : State → State) (r : Fault) : mapNext f (.fault r) = .fault r := rfl

@[simp] theorem mapNext_refused (f : State → State) (r : Refusal) : mapNext f (.refused r) = .refused r := rfl

/-- A change `f` of the state that goes through the fault-stop goes through a meaning whose operand checks `x` do not see it and
whose own next state it goes through. -/
theorem complete_bind_commutes {α : Type} {f : State → State} {s : State} {k k' : α → State} (x : Except FaultReason α)
    (hfault : ∀ e, (f s).raiseFault e = f (s.raiseFault e)) (hk : ∀ a, k' a = f (k a)) :
    (f s).complete (do let a ← x; return k' a) = mapNext f (s.complete (do let a ← x; return k a)) := by
  cases x with
  | error e => exact congrArg Host.Outcome.next (hfault e)
  | ok a => exact congrArg Host.Outcome.next (hk a)

/-- No interrupt is due exactly when the condition of R707 fails. -/
theorem interruptDue_none_iff_not {s : State} :
    s.interruptDue = none ↔ ¬ (s.ie = true ∧ s.reg 6 &&& s.reg 5 ≠ 0) := by
  rw [interruptDue_none, not_and_not_right]
  rfl

theorem cycleWith_of_quiet {s : State} (oc : OpcodeMap) (h : s.interruptDue = none) :
    s.cycleWith oc = s.fetchExecuteWith oc := by
  simp [State.cycleWith, h]

theorem fetchExecuteWith_of_decodes {oc : OpcodeMap} {s : State} {i : Instr} {rest : List Byte}
    (h : decodeWith oc s.fetchBytes = .ok (i, rest)) : s.fetchExecuteWith oc = exec i s.fetchOpcode := by
  simp [State.fetchExecuteWith, h]

theorem fetchExecuteWith_of_refused {oc : OpcodeMap} {s : State} {e : DecodeError}
    (h : decodeWith oc s.fetchBytes = .error e) :
    s.fetchExecuteWith oc = .next (s.fetchOpcode.raiseFault (decodeFault e)) := by
  simp [State.fetchExecuteWith, h]

theorem instrAtPc_of_decodes {oc : OpcodeMap} {s : State} {i : Instr} {rest : List Byte}
    (h : decodeWith oc s.fetchBytes = .ok (i, rest)) : s.instrAtPc oc = some i := by
  simp [State.instrAtPc, h]

theorem instrAtPc_of_refused {oc : OpcodeMap} {s : State} {e : DecodeError}
    (h : decodeWith oc s.fetchBytes = .error e) : s.instrAtPc oc = none := by
  simp [State.instrAtPc, h]

@[simp] theorem instrAtPc_takeMove (oc : OpcodeMap) (s : State) : s.takeMove.instrAtPc oc = s.instrAtPc oc := rfl

@[simp] theorem ie_fetchOpcode (s : State) : s.fetchOpcode.ie = s.ie := rfl

/-! #### Setting `ie` before an operation -/

@[simp] theorem setIe_ie (s : State) : s.setIe s.ie = s := rfl

@[simp] theorem fetchOpcode_setIe (s : State) (b : Bool) : (s.setIe b).fetchOpcode = s.fetchOpcode.setIe b := rfl

@[simp] theorem raiseFault_setIe (s : State) (b : Bool) (e : FaultReason) :
    (s.setIe b).raiseFault e = (s.raiseFault e).setIe b := rfl

@[simp] theorem takeMove_setIe (s : State) (b : Bool) : (s.setIe b).takeMove = s.takeMove.setIe b := rfl

@[simp] theorem nextMoveWith_setIe (host : HostSchedule) (s : State) (b : Bool) :
    (s.setIe b).nextMoveWith host = s.nextMoveWith host := rfl

@[simp] theorem raiseTimerEvent_setIe (s : State) (b : Bool) :
    (s.setIe b).raiseTimerEvent = s.raiseTimerEvent.setIe b := rfl

@[simp] theorem raiseLine_setIe (s : State) (b : Bool) (i : Line) :
    (s.setIe b).raiseLine i = (s.raiseLine i).setIe b := rfl

/-- Interrupt entry overwrites `ie` before anything else could look at it (R710). -/
@[simp] theorem interruptEntry_setIe (s : State) (b : Bool) (i : Line) :
    (s.setIe b).interruptEntry i = s.interruptEntry i := rfl

/-- The return from an interrupt overwrites `ie` and does not look at it (R603). -/
@[simp] theorem interruptReturn_setIe (s : State) (b : Bool) : (s.setIe b).interruptReturn = s.interruptReturn := rfl

/-- Where nothing is pending and enabled, no interrupt is due, whatever `ie` is (R707). -/
theorem interruptDue_of_masked_zero {s : State} (h : s.reg 6 &&& s.reg 5 = 0) : s.interruptDue = none :=
  interruptDue_none.mpr fun _ => h

/-! #### Instructions -/

/-- ADD and MUL pass `ie` through: the operand checks and the ALU see only PC and the registers. -/
theorem complete_aluInto_setIe (s : State) (b : Bool) (sel : AluSelector) (b1 b2 : Byte) :
    (s.setIe b).complete ((s.setIe b).aluInto sel b1 b2) = mapNext (·.setIe b) (s.complete (s.aluInto sel b1 b2)) := by
  unfold State.aluInto
  rw [show (s.setIe b).operandsRR b1 b2 = s.operandsRR b1 b2 from rfl]
  cases s.operandsRR b1 b2 with
  | error e => rfl
  | ok r =>
    exact complete_bind_commutes (f := (·.setIe b)) (alu sel (s.reg r.1) (s.reg r.2)) (fun _ => rfl) fun _ => rfl

/-- Every instruction but IRET passes `ie` through. -/
theorem exec_setIe_of_ne_iret {i : Instr} (hi : i ≠ .iret) (s : State) (b : Bool) :
    exec i (s.setIe b) = mapNext (·.setIe b) (exec i s) := by
  cases i with
  | hlt => rfl
  | ret => rfl
  | iret => exact absurd rfl hi
  | mul a c => exact complete_aluInto_setIe s b .mul a c
  | add a c => exact complete_aluInto_setIe s b .add a c
  | ldi d imm => exact complete_bind_commutes (f := (·.setIe b)) (s.operandsRI d imm) (fun _ => rfl) fun _ => rfl
  | st a c => exact complete_bind_commutes (f := (·.setIe b)) (s.operandsRR a c) (fun _ => rfl) fun _ => rfl
  | jmp a => exact complete_bind_commutes (f := (·.setIe b)) (s.operandRJump a) (fun _ => rfl) fun _ => rfl
  | prn a | pra a | push a | pop a | call a =>
    exact complete_bind_commutes (f := (·.setIe b)) (s.operandR a) (fun _ => rfl) fun _ => rfl

/-- No instruction depends on `ie`: IRET's next state does not hold the old value, any other's holds it untouched. -/
theorem exec_setIe (i : Instr) (s : State) (b : Bool) :
    exec i (s.setIe b) = mapNext (fun t => if i = .iret then t else t.setIe b) (exec i s) := by
  by_cases hi : i = .iret
  · subst hi
    simp [exec, execIret]
  · simpa only [if_neg hi] using exec_setIe_of_ne_iret hi s b

/-- `ie` after an instruction. That all but IRET leave it is `exec_setIe_of_ne_iret` at the value `ie` already has. -/
theorem ie_exec {i : Instr} {s t : State} (h : exec i s = .next t) : t.ie = if i = .iret then true else s.ie := by
  by_cases hi : i = .iret
  · subst hi
    simp [execIret_cases h]
  · have hs := exec_setIe_of_ne_iret hi s s.ie
    rw [setIe_ie, h, mapNext_next] at hs
    have ht : t = t.setIe s.ie := Host.Outcome.next.inj hs
    rw [if_neg hi, ht, ie_setIe]

/-! #### The cycle and the step -/

/-- Fetch and execute, the fault-stop included, do not depend on `ie`. -/
theorem fetchExecuteWith_setIe (oc : OpcodeMap) (s : State) (b : Bool) :
    (s.setIe b).fetchExecuteWith oc =
      mapNext (fun t => if s.instrAtPc oc = some .iret then t else t.setIe b) (s.fetchExecuteWith oc) := by
  cases h : decodeWith oc s.fetchBytes with
  | ok p =>
    rw [fetchExecuteWith_of_decodes h, fetchExecuteWith_of_decodes (s := s.setIe b) h, fetchOpcode_setIe, exec_setIe,
      instrAtPc_of_decodes h]
    simp
  | error e =>
    rw [fetchExecuteWith_of_refused h, fetchExecuteWith_of_refused (s := s.setIe b) h, fetchOpcode_setIe,
      instrAtPc_of_refused h]
    simp

/-- `ie` after a cycle: false when an interrupt was due, else true when IRET ran, else as it was. -/
theorem ie_of_cycleTo {oc : OpcodeMap} {s t : State} (h : CycleTo oc s t) :
    t.ie =
      if s.ie = true ∧ s.reg 6 &&& s.reg 5 ≠ 0 then false
      else if s.instrAtPc oc = some .iret then true
      else s.ie := by
  cases h with
  | entry i due result =>
    have hdue : s.ie = true ∧ s.reg 6 &&& s.reg 5 ≠ 0 := by
      by_contra hn
      simp [interruptDue_none_iff_not.mpr hn] at due
    rw [if_pos hdue, result, ie_interruptEntry]
  | instr i rest quiet decodes runs =>
    rw [if_neg (interruptDue_none_iff_not.mp quiet), instrAtPc_of_decodes decodes, ie_exec runs]
    simp
  | illegal e quiet refused result =>
    rw [if_neg (interruptDue_none_iff_not.mp quiet), instrAtPc_of_refused refused, result]
    simp

/-- `ie` after a step: events leave it, a cycle does what `ie_of_cycleTo` says. -/
theorem ie_step {s t : State} (h : step s = .next t) :
    t.ie =
      if s.nextMove = .cycle then
        if s.ie = true ∧ s.reg 6 &&& s.reg 5 ≠ 0 then false
        else if s.instrAtPc defaultOpcode = some .iret then true
        else s.ie
      else s.ie := by
  obtain ⟨-, hto⟩ := step_cases h
  cases hto with
  | cycle asked result =>
    have hcycle := ie_of_cycleTo result
    rw [if_pos (show s.nextMove = .cycle from asked)]
    exact hcycle
  | timer asked result => simp [State.nextMove, asked, result]
  | line i asked wired result => simp [State.nextMove, asked, result]

/-- A cycle in which nothing is pending and enabled does not depend on `ie`. -/
theorem cycleWith_setIe_of_masked_zero (oc : OpcodeMap) {s : State} (b : Bool) (h : s.reg 6 &&& s.reg 5 = 0) :
    (s.setIe b).cycleWith oc =
      mapNext (fun t => if s.instrAtPc oc = some .iret then t else t.setIe b) (s.cycleWith oc) := by
  have hb : (s.setIe b).interruptDue = none := interruptDue_of_masked_zero h
  rw [cycleWith_of_quiet oc hb, cycleWith_of_quiet oc (interruptDue_of_masked_zero h), fetchExecuteWith_setIe]

/-- A move does not depend on `ie` where nothing is pending and enabled or the move is no cycle. -/
theorem moveWith_setIe (oc : OpcodeMap) (host : HostSchedule) {s : State} (b : Bool)
    (h : s.reg 6 &&& s.reg 5 = 0 ∨ s.nextMoveWith host ≠ .cycle) :
    (s.setIe b).moveWith oc host =
      mapNext (fun t => if s.nextMoveWith host = .cycle ∧ s.instrAtPc oc = some .iret then t else t.setIe b)
        (s.moveWith oc host) := by
  unfold State.moveWith
  rw [nextMoveWith_setIe, takeMove_setIe]
  cases hm : s.nextMoveWith host with
  | cycle =>
    have hmask : s.takeMove.reg 6 &&& s.takeMove.reg 5 = 0 := h.resolve_right (not_not_intro hm)
    refine (cycleWith_setIe_of_masked_zero oc b hmask).trans ?_
    congr 1
    funext t
    exact if_congr (by simp) rfl rfl
  | timerEvent => simp
  | raiseLine i =>
    cases hw : lineWired i with
    | true => simp [hw]
    | false => simp [hw]

/-- A step does not depend on `ie` where nothing is pending and enabled or the move is no cycle; once stopped it depends on the run
state alone. -/
theorem step_setIe {s : State} (b : Bool) (h : s.reg 6 &&& s.reg 5 = 0 ∨ s.nextMove ≠ .cycle) :
    step (s.setIe b) =
      mapNext (fun t => if s.nextMove = .cycle ∧ s.instrAtPc defaultOpcode = some .iret then t else t.setIe b)
        (step s) := by
  unfold step State.stepWith
  rw [run_setIe]
  cases s.run with
  | running => exact moveWith_setIe defaultOpcode Config.hostMove b h
  | halted => rfl
  | faulted reason fpc fop => rfl

/-- Settles O49: the readers by setting `ie` beforehand and following it through each operation, the writers by inversion of the
step. -/
theorem ieWritersAndReaders : Obligations.IeWritersAndReaders :=
  ⟨rfl,
    fun s i => ⟨ie_interruptEntry s i, ie_raiseLine s i, ie_raiseTimerEvent s⟩,
    fun _ _ _ => ie_exec,
    fun _ _ => ie_step,
    exec_setIe,
    fetchExecuteWith_setIe,
    fun s b i => ⟨interruptEntry_setIe s b i, raiseTimerEvent_setIe s b, raiseLine_setIe s b i⟩,
    fun _ b => step_setIe b⟩

end Sys2Proof.Machine

/-! ### Encoding: the lookup and the operand bytes (30_encoding.md R300, R306) -/

namespace Sys2Proof

/-- Under an injective assignment the lookup finds exactly the mnemonic whose opcode the byte is (R306). -/
theorem lookup_some_iff {oc : OpcodeMap} (hoc : Function.Injective oc) {b : Byte} {m : Mnemonic} :
    lookup oc b = some m ↔ oc m = b :=
  ⟨opcode_of_lookup, fun h => h ▸ lookup_opcode hoc m⟩

/-- A byte that is looked up decodes by taking operands in the format of what is found (R300). -/
theorem decodeWith_of_lookup {oc : OpcodeMap} {b : Byte} {m : Mnemonic} (h : lookup oc b = some m) (rest : List Byte) :
    decodeWith oc (b :: rest) = takeOperands m m.format rest := by
  simp [decodeWith, h]

/-- Where at least as many bytes stand as a format counts, an instruction takes that many of them (R300, R301). -/
theorem takeOperands_of_le (m : Mnemonic) {f : Format} {bs : List Byte} (h : f.operandCount ≤ bs.length) :
    ∃ i, takeOperands m f bs = .ok (i, bs.drop f.operandCount) := by
  cases f with
  | f0 => exact ⟨_, rfl⟩
  | fr =>
    obtain ⟨b1, bs, rfl⟩ := List.exists_cons_of_length_pos h
    exact ⟨_, rfl⟩
  | frr | fri =>
    match bs, h with
    | b1 :: b2 :: bs, _ => exact ⟨_, rfl⟩

/-- Settles O4: the lookup by injectivity; the bytes taken by `takeOperands_of_le`, the mnemonic by `takeOperands_ok`. -/
theorem decodeIsTableLookup : Obligations.DecodeIsTableLookup := by
  intro oc hoc b
  refine ⟨fun m => lookup_some_iff hoc, lookup_none, fun m rest hop hlen => ?_⟩
  obtain ⟨i, htake⟩ := takeOperands_of_le m hlen
  have hdecode := decodeWith_of_lookup ((lookup_some_iff hoc).mpr hop) rest
  exact ⟨i, hdecode.trans htake, (takeOperands_ok htake).1⟩

end Sys2Proof

/-! ### Interrupts: the check that starts a cycle and the vector lookup (60_exceptions.md R707, R710, R712) -/

namespace Sys2Proof.Machine

/-- A cycle in which an interrupt is due is the entry on that line and nothing else (R707). -/
theorem cycleWith_of_due {s : State} {i : Line} (oc : OpcodeMap) (h : s.interruptDue = some i) :
    s.cycleWith oc = .next (s.interruptEntry i) := by
  simp [State.cycleWith, h]

/-- Settles O18: the interrupt check finds no line exactly when the condition of R707 fails, and the cycle follows the check. -/
theorem interruptCheckStartsCycle : Obligations.InterruptCheckStartsCycle := by
  intro oc s
  split
  next hdue =>
    obtain ⟨i, hi⟩ := Option.ne_none_iff_exists'.mp fun hnone => interruptDue_none_iff_not.mp hnone hdue
    exact ⟨i, cycleWith_of_due oc hi⟩
  next hquiet => exact cycleWith_of_quiet oc (interruptDue_none_iff_not.mpr hquiet)

/-- Every vector table entry lies within the address space, so its address as a byte is its address (R204). -/
theorem toNat_vectorAddress (i : Line) : (vectorAddress i).toNat = 0xF8 + i.val := by
  rw [vectorAddress, BitVec.toNat_ofNat]
  omega

/-- Interrupt entry leaves every byte as it was that is none of the nine of its frame: PC's slot, written first, and the eight of
the registers below it (R710). -/
theorem read_interruptEntry_of_outside_frame (s : State) (i : Line) (a : Nat)
    (h : ∀ k : Fin 9, a ≠ (s.reg sp - 1 - BitVec.ofNat 8 k.val).toNat) :
    (s.interruptEntry i).mem.read a = s.mem.read a := by
  have hpcSlot : a ≠ (s.reg sp - 1).toNat := by simpa using h 0
  have hne : sp ≠ is := by decide
  rw [State.interruptEntry, mem_setPc, read_foldl_pushReg]
  · rw [read_push, reg_setIe, reg_setReg_ne _ _ hne, if_neg hpcSlot, mem_setIe, mem_setReg]
  · intro k hk
    rw [reg_push, if_pos rfl, reg_setIe, reg_setReg_ne _ _ hne]
    exact h ⟨k + 1, Nat.succ_lt_succ hk⟩

/-- Settles O45: PC is read from the vector entry once the frame is pushed, and the frame changes no byte outside it. -/
theorem vectorLookup : Obligations.VectorLookup := by
  intro s i
  have hpc : (s.interruptEntry i).pc = (s.interruptEntry i).mem.read (0xF8 + i.val) := by
    rw [pc_interruptEntry, State.memRead, toNat_vectorAddress]
  exact ⟨hpc, fun hframe => hpc.trans (read_interruptEntry_of_outside_frame s i _ hframe)⟩

end Sys2Proof.Machine

/-! ### Encoding: decode and encode agree (30_encoding.md R300..R307) -/

namespace Sys2Proof

/-- The operand bytes of an instruction are taken back whole, and the bytes after them are left (R301). -/
theorem takeOperands_operandBytes (i : Instr) (rest : List Byte) :
    takeOperands i.mnemonic i.mnemonic.format (i.operandBytes ++ rest) = .ok (i, rest) := by
  cases i <;> rfl

/-- Where fewer bytes stand than a format counts, one is missing (R300). -/
theorem takeOperands_of_lt (m : Mnemonic) {f : Format} {bs : List Byte} (h : bs.length < f.operandCount) :
    takeOperands m f bs = .error .missingByte := by
  cases f with
  | f0 => exact absurd h (Nat.not_lt_zero _)
  | fr =>
    obtain rfl := List.length_eq_zero_iff.mp (Nat.lt_one_iff.mp h)
    rfl
  | frr | fri =>
    match bs, h with
    | [], _ => rfl
    | [_], _ => rfl

/-- An instruction has as many operand bytes as its format counts (R301). -/
theorem length_operandBytes (i : Instr) : i.operandBytes.length = i.mnemonic.format.operandCount := by
  cases i <;> rfl

theorem operandCount_le_two (f : Format) : f.operandCount ≤ 2 := by
  cases f <;> decide

/-- What the operand bytes lack is a byte, never an opcode. -/
theorem takeOperands_error {m : Mnemonic} {f : Format} {bs : List Byte} {e : DecodeError}
    (h : takeOperands m f bs = .error e) : e = .missingByte := by
  rcases Nat.lt_or_ge bs.length f.operandCount with hlt | hle
  · rw [takeOperands_of_lt m hlt] at h
    cases h
    rfl
  · obtain ⟨i, hi⟩ := takeOperands_of_le m hle
    cases hi.symm.trans h

/-- A byte that is no opcode does not decode (R307). -/
theorem decodeWith_of_lookup_none {oc : OpcodeMap} {b : Byte} (h : lookup oc b = none) (rest : List Byte) :
    decodeWith oc (b :: rest) = .error .unknownOpcode := by
  simp [decodeWith, h]

/-- Bytes that decode are an opcode that is looked up to the instruction's mnemonic, its operand bytes, and the rest. -/
theorem decodeWith_ok {oc : OpcodeMap} {b : Byte} {bs rest : List Byte} {i : Instr}
    (h : decodeWith oc (b :: bs) = .ok (i, rest)) :
    lookup oc b = some i.mnemonic ∧ bs = i.operandBytes ++ rest := by
  cases hm : lookup oc b with
  | none => rw [decodeWith_of_lookup_none hm] at h; cases h
  | some m =>
    rw [decodeWith_of_lookup hm] at h
    obtain ⟨rfl, hbs⟩ := takeOperands_ok h
    exact ⟨rfl, hbs⟩

/-- Bytes that do not decode begin with a byte that is no opcode exactly when that is the error given. -/
theorem decodeWith_error {oc : OpcodeMap} {b : Byte} {bs : List Byte} {e : DecodeError}
    (h : decodeWith oc (b :: bs) = .error e) : e = .unknownOpcode ↔ lookup oc b = none := by
  cases hm : lookup oc b with
  | none =>
    rw [decodeWith_of_lookup_none hm] at h
    cases h
    exact iff_of_true rfl rfl
  | some m =>
    rw [decodeWith_of_lookup hm] at h
    simp [takeOperands_error h]

/-- Settles O1: the opcode is looked up to its own mnemonic by injectivity, and the operand bytes are taken back whole. -/
theorem decodeOfEncode : Obligations.DecodeOfEncode := by
  intro oc hoc i rest
  rw [encodeWith, List.cons_append, decodeWith_of_lookup (lookup_opcode hoc i.mnemonic)]
  exact takeOperands_operandBytes i rest

/-- Settles O2: by inversion of the lookup and of the operand bytes. -/
theorem encodeOfDecode : Obligations.EncodeOfDecode := by
  intro oc bytes rest i h
  cases bytes with
  | nil => cases h
  | cons b bs =>
    obtain ⟨hop, rfl⟩ := decodeWith_ok h
    rw [encodeWith, opcode_of_lookup hop, List.cons_append]

/-- Settles O3: with the opcode cut off nothing is there; with it, fewer operand bytes than the format counts. -/
theorem truncatedInstructionRefused : Obligations.TruncatedInstructionRefused := by
  intro oc hoc i k hk
  cases k with
  | zero => rfl
  | succ k =>
    have hcut : (i.operandBytes.take k).length < i.mnemonic.format.operandCount := by
      rw [encodeWith, List.length_cons] at hk
      rw [← length_operandBytes, List.length_take]
      omega
    rw [encodeWith, List.take_succ_cons, decodeWith_of_lookup (lookup_opcode hoc i.mnemonic)]
    exact takeOperands_of_lt _ hcut

/-- Settles O5: a byte is no opcode exactly when no mnemonic has it, and the thirteen are listed. -/
theorem illegalOpcodesOfDefault : Obligations.IllegalOpcodesOfDefault := by
  intro b
  have hlist : ([0x01, 0x99, 0xAA, 0xA8, 0x43, 0x42, 0x4D, 0x4C, 0x48, 0x09, 0x50, 0x9A, 0x0B] : List Byte) =
      Mnemonic.all.map defaultOpcode := rfl
  rw [lookup_none, hlist, List.mem_map]
  simp [mem_all]

/-- Settles O6: each word is the encoding of its instruction, so all but the last follow from O1. -/
theorem sampleWordsDecode : Obligations.SampleWordsDecode :=
  have hdecode := decodeOfEncode defaultOpcode defaultOpcode_injective
  ⟨hdecode .hlt [], hdecode (.ldi 3 0xFF) [], hdecode (.add 2 3) [], hdecode (.prn 7) [0x01], hdecode (.pop 4) [],
    hdecode (.st 1 0) [], hdecode (.call 1) [], hdecode .iret [], decodeWith_of_lookup_none (by decide) []⟩

end Sys2Proof

/-! ### Everything an instruction can do (40_cycle_engine.md R404, R405) -/

namespace Sys2Proof.Machine

/-- The instructions that complete, each with the next state it then has. A register operand is the byte that names it; `hpc` says that
the operand bytes, and the successor where there is one, lie within 0xFF (R404). -/
inductive Completes (s : State) : Instr → State → Prop where
  | hlt : Completes s .hlt s.halt
  | ldi (d : RegIdx) (imm : Byte) (hpc : s.pc.toNat ≤ 0xFC) :
      Completes s (.ldi (regByte d) imm) ((s.setReg d imm).advance 3)
  | mul (a b : RegIdx) (hpc : s.pc.toNat ≤ 0xFC) :
      Completes s (.mul (regByte a) (regByte b))
        ((s.setReg a (BitVec.ofNat 8 ((s.reg a).toNat * (s.reg b).toNat))).advance 3)
  | add (a b : RegIdx) (hpc : s.pc.toNat ≤ 0xFC) :
      Completes s (.add (regByte a) (regByte b))
        ((s.setReg a (BitVec.ofNat 8 ((s.reg a).toNat + (s.reg b).toNat))).advance 3)
  | prn (a : RegIdx) (hpc : s.pc.toNat ≤ 0xFD) :
      Completes s (.prn (regByte a)) ((s.emit (.dec (s.reg a))).advance 2)
  | pra (a : RegIdx) (hpc : s.pc.toNat ≤ 0xFD) :
      Completes s (.pra (regByte a)) ((s.emit (.chr (s.reg a))).advance 2)
  | push (a : RegIdx) (hpc : s.pc.toNat ≤ 0xFD) : Completes s (.push (regByte a)) ((s.pushReg a).advance 2)
  | pop (d : RegIdx) (hpc : s.pc.toNat ≤ 0xFD) : Completes s (.pop (regByte d)) ((s.popReg d).advance 2)
  | call (a : RegIdx) (hpc : s.pc.toNat ≤ 0xFD) :
      Completes s (.call (regByte a)) ((s.push (s.pc + 2)).setPc ((s.push (s.pc + 2)).reg a))
  | ret : Completes s .ret s.popPc
  | jmp (a : RegIdx) (hpc : s.pc.toNat ≤ 0xFE) : Completes s (.jmp (regByte a)) (s.setPc (s.reg a))
  | st (a b : RegIdx) (hpc : s.pc.toNat ≤ 0xFC) :
      Completes s (.st (regByte a) (regByte b)) ((s.memWrite (s.reg a) (s.reg b)).advance 3)
  | iret : Completes s .iret s.interruptReturn

/-- An instruction that answers a next state faults in its operand checks or completes. -/
theorem exec_cases {i : Instr} {s t : State} (h : exec i s = .next t) : FaultStops s t ∨ Completes s i t := by
  cases i with
  | hlt => exact .inr (execHlt_cases h ▸ .hlt)
  | ret => exact .inr (execRet_cases h ▸ .ret)
  | iret => exact .inr (execIret_cases h ▸ .iret)
  | ldi d imm => exact (execLdi_cases h).imp_right fun ⟨r, hd, hpc, ht⟩ => hd ▸ ht ▸ .ldi r imm hpc
  | mul a b => exact (execMul_cases h).imp_right fun ⟨r1, r2, ha, hb, hpc, ht⟩ => ha ▸ hb ▸ ht ▸ .mul r1 r2 hpc
  | add a b => exact (execAdd_cases h).imp_right fun ⟨r1, r2, ha, hb, hpc, ht⟩ => ha ▸ hb ▸ ht ▸ .add r1 r2 hpc
  | prn a => exact (execPrn_cases h).imp_right fun ⟨r, ha, hpc, ht⟩ => ha ▸ ht ▸ .prn r hpc
  | pra a => exact (execPra_cases h).imp_right fun ⟨r, ha, hpc, ht⟩ => ha ▸ ht ▸ .pra r hpc
  | push a => exact (execPush_cases h).imp_right fun ⟨r, ha, hpc, ht⟩ => ha ▸ ht ▸ .push r hpc
  | pop d => exact (execPop_cases h).imp_right fun ⟨r, hd, hpc, ht⟩ => hd ▸ ht ▸ .pop r hpc
  | call a => exact (execCall_cases h).imp_right fun ⟨r, ha, hpc, ht⟩ => ha ▸ ht ▸ .call r hpc
  | jmp a => exact (execJmp_cases h).imp_right fun ⟨r, ha, hpc, ht⟩ => ha ▸ ht ▸ .jmp r hpc
  | st a b => exact (execSt_cases h).imp_right fun ⟨r1, r2, ha, hb, hpc, ht⟩ => ha ▸ hb ▸ ht ▸ .st r1 r2 hpc

/-- A meaning whose operand checks pass answers its own next state. -/
theorem complete_bind_of_ok {α : Type} {s : State} {x : Except FaultReason α} {k : α → State} {a : α} (h : x = .ok a) :
    (s.complete do let a ← x; return k a) = .next (k a) := by
  subst h
  rfl

/-- What `Completes` says of an instruction is what `exec` answers. -/
theorem exec_of_completes {i : Instr} {s t : State} (h : Completes s i t) : exec i s = .next t := by
  cases h with
  | hlt => rfl
  | ret => rfl
  | iret => rfl
  | ldi d imm hpc => exact complete_bind_of_ok (operandsRI_ok (r := (d, imm)).mpr ⟨hpc, rfl, rfl⟩)
  | mul a b hpc => exact complete_bind_of_ok (operandsRR_ok (r := (a, b)).mpr ⟨hpc, rfl, rfl⟩)
  | add a b hpc => exact complete_bind_of_ok (operandsRR_ok (r := (a, b)).mpr ⟨hpc, rfl, rfl⟩)
  | st a b hpc => exact complete_bind_of_ok (operandsRR_ok (r := (a, b)).mpr ⟨hpc, rfl, rfl⟩)
  | jmp a hpc => exact complete_bind_of_ok (operandRJump_ok.mpr ⟨hpc, rfl⟩)
  | prn a hpc | pra a hpc | push a hpc | pop a hpc | call a hpc =>
    exact complete_bind_of_ok (operandR_ok.mpr ⟨hpc, rfl⟩)

end Sys2Proof.Machine

/-! ### What every instruction leaves unchanged -/

namespace Sys2Proof.Machine

/-! #### Registers, memory and output: who can change them -/

/-- A register changes only by an instruction that names it as its destination, by IRET, or, for R7, by a use of the stack. -/
theorem reg_exec {i : Instr} {s t : State} (h : exec i s = .next t) {r : RegIdx} (hr : t.reg r ≠ s.reg r) :
    i = .iret ∨ (i.mnemonic ∈ ([.ldi, .mul, .add, .pop] : List Mnemonic) ∧ i.registerBytes.head? = some (regByte r)) ∨
      (r = 7 ∧ i.mnemonic ∈ ([.push, .pop, .call, .ret] : List Mnemonic)) := by
  rcases exec_cases h with ⟨e, -, rfl⟩ | hc
  · exact absurd (reg_raiseFault s e r) hr
  · cases hc with
    | iret => exact .inl rfl
    | hlt | prn | pra | jmp | st => exact absurd rfl hr
    | ldi d imm hpc | mul a b hpc | add a b hpc =>
      have hd : r = _ := of_not_not fun hne => hr (reg_setReg_ne s _ hne)
      subst hd
      exact .inr (.inl ⟨by simp [Instr.mnemonic], rfl⟩)
    | push a hpc =>
      have hsp : r = sp := of_not_not fun hne => hr ((reg_pushReg s a r).trans (if_neg hne))
      exact .inr (.inr ⟨hsp, by simp [Instr.mnemonic]⟩)
    | call a hpc =>
      have hsp : r = sp := of_not_not fun hne => hr ((reg_push s (s.pc + 2) r).trans (if_neg hne))
      exact .inr (.inr ⟨hsp, by simp [Instr.mnemonic]⟩)
    | ret =>
      have hsp : r = sp := of_not_not fun hne => hr ((reg_popPc s r).trans (if_neg hne))
      exact .inr (.inr ⟨hsp, by simp [Instr.mnemonic]⟩)
    | pop d hpc =>
      by_cases hsp : r = sp
      · exact .inr (.inr ⟨hsp, by simp [Instr.mnemonic]⟩)
      · have hd : r = d := of_not_not fun hne => hr (by simp [reg_popReg, hsp, hne])
        subst hd
        exact .inr (.inl ⟨by simp [Instr.mnemonic], rfl⟩)

/-- A byte of memory changes only by PUSH or CALL, in the slot below R7, or by ST where its first register points. -/
theorem mem_exec {i : Instr} {s t : State} (h : exec i s = .next t) {a : Nat} (ha : t.mem.read a ≠ s.mem.read a) :
    (∃ x, i = .push x ∧ a = (s.reg 7 - 1).toNat) ∨ (∃ x, i = .call x ∧ a = (s.reg 7 - 1).toNat) ∨
      ∃ (r : RegIdx) (y : Byte), i = .st (regByte r) y ∧ a = (s.reg r).toNat := by
  rcases exec_cases h with ⟨e, -, rfl⟩ | hc
  · exact absurd rfl ha
  · cases hc with
    | hlt | ldi | mul | add | prn | pra | pop | ret | jmp => exact absurd rfl ha
    | iret => exact absurd (congrArg (Memory.read · a) (mem_interruptReturn s)) ha
    | push x hpc => exact .inl ⟨_, rfl, of_not_not fun hne => ha ((read_pushReg s x a).trans (if_neg hne))⟩
    | call x hpc => exact .inr (.inl ⟨_, rfl, of_not_not fun hne => ha ((read_push s _ a).trans (if_neg hne))⟩)
    | st x y hpc =>
      exact .inr (.inr ⟨x, _, rfl, of_not_not fun hne => ha ((read_memWrite s _ _ a).trans (if_neg hne))⟩)

/-- Output is appended only by PRN and PRA, one event each. -/
theorem out_exec {i : Instr} {s t : State} (h : exec i s = .next t) :
    t.out = s.out ∨ (∃ r, i = .prn (regByte r) ∧ t.out = s.out ++ [.dec (s.reg r)]) ∨
      ∃ r, i = .pra (regByte r) ∧ t.out = s.out ++ [.chr (s.reg r)] := by
  rcases exec_cases h with ⟨e, -, rfl⟩ | hc
  · exact .inl rfl
  · cases hc with
    | hlt | ldi | mul | add | push | pop | call | ret | jmp | st => exact .inl rfl
    | iret => exact .inl (out_interruptReturn s)
    | prn a hpc => exact .inr (.inl ⟨a, rfl, rfl⟩)
    | pra a hpc => exact .inr (.inr ⟨a, rfl, rfl⟩)

/-! #### Control state: what no instruction changes -/

/-- No instruction writes IR or `ov` or takes a move of the host. -/
theorem exec_keeps {i : Instr} {s t : State} (h : exec i s = .next t) : t.ir = s.ir ∧ t.ov = s.ov ∧ SameHost s t := by
  rcases exec_cases h with ⟨e, -, rfl⟩ | hc
  · exact ⟨rfl, rfl, rfl, rfl⟩
  · cases hc with
    | hlt | ldi | mul | add | prn | pra | push | pop | call | ret | jmp | st => exact ⟨rfl, rfl, rfl, rfl⟩
    | iret =>
      exact ⟨ir_interruptReturn s, ov_interruptReturn s, moves_interruptReturn s, turn_interruptReturn s⟩

/-- An instruction faults in its checks, or is HLT, or leaves the run state. -/
theorem run_exec_cases {i : Instr} {s t : State} (h : exec i s = .next t) :
    FaultStops s t ∨ (i = .hlt ∧ t = s.halt) ∨ (i ≠ .hlt ∧ t.run = s.run) := by
  refine (exec_cases h).imp_right fun hc => ?_
  cases hc with
  | hlt => exact .inl ⟨rfl, rfl⟩
  | ldi | mul | add | prn | pra | push | pop | call | ret | jmp | st => exact .inr ⟨nofun, rfl⟩
  | iret => exact .inr ⟨nofun, run_interruptReturn s⟩

/-- Every instruction keeps memory in its canonical form. -/
theorem wf_exec {i : Instr} {s t : State} (h : exec i s = .next t) (hwf : s.mem.wf) : t.mem.wf := by
  rcases exec_cases h with ⟨e, -, rfl⟩ | hc
  · exact hwf
  · cases hc with
    | hlt | ldi | mul | add | prn | pra | pop | ret | jmp => exact hwf
    | push a hpc => exact wf_pushReg hwf a
    | call a hpc => exact wf_push hwf _
    | st a b hpc => exact wf_memWrite hwf _ _
    | iret => rwa [mem_interruptReturn]

/-! #### Frames -/

/-- Settles O36: each faults or writes the register it names and PC. -/
theorem frameRegisterDestination : Obligations.FrameRegisterDestination := by
  intro s t d b h
  have hwrite : FaultStops s t ∨ ∃ r v, d = regByte r ∧ t = (s.setReg r v).advance 3 := by
    rcases h with h | h | h
    · exact (execLdi_cases h).imp_right fun ⟨r, hd, _, ht⟩ => ⟨r, _, hd, ht⟩
    · exact (execAdd_cases h).imp_right fun ⟨r, _, hd, _, _, ht⟩ => ⟨r, _, hd, ht⟩
    · exact (execMul_cases h).imp_right fun ⟨r, _, hd, _, _, ht⟩ => ⟨r, _, hd, ht⟩
  rcases hwrite with ⟨e, -, rfl⟩ | ⟨r, v, rfl, rfl⟩
  · exact ⟨fun _ _ => rfl, fun _ => rfl, rfl, rfl, rfl, rfl, rfl, rfl⟩
  · exact ⟨fun q hq => reg_setReg_ne s v fun hqr => hq (congrArg regByte hqr), fun _ => rfl, rfl, rfl, rfl, rfl, rfl, rfl⟩

/-- Settles O37: each faults or appends one event and writes PC. -/
theorem frameOutput : Obligations.FrameOutput := by
  intro s t a h
  have hemit : FaultStops s t ∨ ∃ e, t = (s.emit e).advance 2 := by
    rcases h with h | h
    · exact (execPrn_cases h).imp_right fun ⟨_, _, _, ht⟩ => ⟨_, ht⟩
    · exact (execPra_cases h).imp_right fun ⟨_, _, _, ht⟩ => ⟨_, ht⟩
  rcases hemit with ⟨e, -, rfl⟩ | ⟨e, rfl⟩
  · exact ⟨fun _ _ => rfl, fun _ => rfl, ⟨rfl, rfl, rfl, rfl, rfl⟩, [], (List.append_nil s.out).symm, Nat.zero_le 1⟩
  · exact ⟨fun _ _ => rfl, fun _ => rfl, ⟨rfl, rfl, rfl, rfl, rfl⟩, [e], rfl, Nat.le_refl 1⟩

/-- Settles O38: it faults or writes the byte where its first register points, and PC. -/
theorem frameStore : Obligations.FrameStore := by
  intro s t a b h
  rcases execSt_cases h with ⟨e, -, rfl⟩ | ⟨r1, r2, rfl, rfl, -, rfl⟩
  · exact ⟨fun _ _ => rfl, rfl, ⟨rfl, rfl, rfl, rfl, rfl⟩, fun _ _ => rfl⟩
  · exact ⟨fun _ _ => rfl, rfl, ⟨rfl, rfl, rfl, rfl, rfl⟩,
      fun k hk => read_write_ne s.mem _ fun hka => hk ⟨r1, rfl, hka⟩⟩

/-- Settles O39: each faults or pushes one byte and writes PC. -/
theorem frameStackWrite : Obligations.FrameStackWrite := by
  intro s t a h
  have hpush : FaultStops s t ∨ ∃ v p, t = (s.push v).setPc p := by
    rcases h with h | h
    · exact (execPush_cases h).imp_right fun ⟨r, _, _, ht⟩ => ⟨s.decSp.reg r, _, ht⟩
    · exact (execCall_cases h).imp_right fun ⟨_, _, _, ht⟩ => ⟨_, _, ht⟩
  rcases hpush with ⟨e, -, rfl⟩ | ⟨v, p, rfl⟩
  · exact ⟨fun _ _ => rfl, rfl, ⟨rfl, rfl, rfl, rfl, rfl⟩, fun _ _ => rfl⟩
  · exact ⟨fun r hr => (reg_push s v r).trans (if_neg (List.ne_of_not_mem_cons hr)), rfl, ⟨rfl, rfl, rfl, rfl, rfl⟩,
      fun k hk => (read_push s v k).trans (if_neg hk)⟩

/-- Settles O40: POP faults or pops one byte into a register; JMP faults or writes PC alone. -/
theorem framePopAndJump : Obligations.FramePopAndJump := by
  intro s t a
  constructor
  · intro h
    rcases execPop_cases h with ⟨e, -, rfl⟩ | ⟨r, rfl, -, rfl⟩
    · exact ⟨fun _ _ _ => rfl, fun _ => rfl, rfl, rfl, rfl, rfl, rfl, rfl⟩
    · refine ⟨fun q h7 hq => ?_, fun _ => rfl, rfl, rfl, rfl, rfl, rfl, rfl⟩
      have hne : q ≠ r := fun hqr => hq (congrArg regByte hqr)
      rw [reg_advance, reg_popReg, if_neg h7, if_neg hne]
  · intro h
    rcases execJmp_cases h with ⟨e, -, rfl⟩ | ⟨r, rfl, -, rfl⟩
    · exact ⟨fun _ _ => rfl, fun _ => rfl, rfl, rfl, rfl, rfl, rfl, rfl⟩
    · exact ⟨fun _ _ => rfl, fun _ => rfl, rfl, rfl, rfl, rfl, rfl, rfl⟩

/-! #### Faults -/

/-- Settles O42: what changes the run state is a fault-stop or HLT, and each sets it alone. -/
theorem runStateChangeWritesNothingElse : Obligations.RunStateChangeWritesNothingElse := by
  intro i s t h hrun
  rcases run_exec_cases h with ⟨e, -, rfl⟩ | ⟨-, rfl⟩ | ⟨-, hsame⟩
  · rfl
  · rfl
  · exact absurd hsame hrun

/-- A meaning whose operand checks fail answers the fault-stop. -/
theorem complete_bind_of_error {α : Type} {s : State} {x : Except FaultReason α} {k : α → State} {e : FaultReason}
    (h : x = .error e) : (s.complete do let a ← x; return k a) = .next (s.raiseFault e) := by
  subst h
  rfl

/-- The outcome `o` is the first fault of R404, in its order, of an instruction with `n` operand bytes, of which `regs` name registers,
and with a sequential successor where `succ` holds; where there is none it is a next state whose run state is `run`. -/
def FaultsInOrder (s : State) (n : Nat) (regs : List Byte) (succ : Prop) [Decidable succ] (run : RunState)
    (o : Host.Outcome State Fault Refusal) : Prop :=
  if 0xFF < s.pc.toNat + n then o = .next (s.raiseFault .operandOutOfRange)
  else if ∃ b ∈ regs, 7 < b.toNat then o = .next (s.raiseFault .badRegister)
  else if succ ∧ 0xFF < s.pc.toNat + n + 1 then o = .next (s.raiseFault .pcOverflow)
  else ∃ t, o = .next t ∧ t.run = run

/-- An instruction without operands checks nothing. -/
theorem faultsInOrder_next {s t : State} {succ : Prop} [Decidable succ] (hsucc : ¬ succ) :
    FaultsInOrder s 0 [] succ t.run (.next t) := by
  rw [FaultsInOrder, if_neg (by omega), if_neg (by simp), if_neg (fun h => hsucc h.1)]
  exact ⟨t, rfl, rfl⟩

theorem faultsInOrder_operandR {s : State} {b : Byte} {k : RegIdx → State} {succ : Prop} [Decidable succ] (hsucc : succ)
    (hk : ∀ r, (k r).run = s.run) :
    FaultsInOrder s 1 [b] succ s.run (s.complete do let r ← s.operandR b; return k r) := by
  unfold FaultsInOrder
  split_ifs with hbeyond hbad hover
  · exact complete_bind_of_error (by rw [operandR_eq, if_pos (by omega)])
  · have hb : 7 < b.toNat := by simpa using hbad
    exact complete_bind_of_error (by rw [operandR_eq, if_neg (by omega), registerOperand_error.mpr ⟨hb, rfl⟩])
  · obtain ⟨r, rfl⟩ := exists_regByte (b := b) (by simpa using hbad)
    exact complete_bind_of_error (by
      rw [operandR_eq, if_neg (by omega), registerOperand_regByte]; exact if_pos (by omega))
  · obtain ⟨r, rfl⟩ := exists_regByte (b := b) (by simpa using hbad)
    have hpc : s.pc.toNat ≤ 0xFD := by
      by_contra hn
      exact hover ⟨hsucc, by omega⟩
    exact ⟨k r, complete_bind_of_ok (operandR_ok.mpr ⟨hpc, rfl⟩), hk r⟩

theorem faultsInOrder_operandRJump {s : State} {b : Byte} {k : RegIdx → State} {succ : Prop} [Decidable succ]
    (hsucc : ¬ succ) (hk : ∀ r, (k r).run = s.run) :
    FaultsInOrder s 1 [b] succ s.run (s.complete do let r ← s.operandRJump b; return k r) := by
  unfold FaultsInOrder
  split_ifs with hbeyond hbad hover
  · exact complete_bind_of_error (by rw [operandRJump_eq, if_pos (by omega)])
  · have hb : 7 < b.toNat := by simpa using hbad
    exact complete_bind_of_error (by rw [operandRJump_eq, if_neg (by omega), registerOperand_error.mpr ⟨hb, rfl⟩])
  · exact absurd hover.1 hsucc
  · obtain ⟨r, rfl⟩ := exists_regByte (b := b) (by simpa using hbad)
    exact ⟨k r, complete_bind_of_ok (operandRJump_ok.mpr ⟨by omega, rfl⟩), hk r⟩

theorem faultsInOrder_operandsRI {s : State} {b imm : Byte} {k : RegIdx × Byte → State} {succ : Prop} [Decidable succ]
    (hsucc : succ) (hk : ∀ r, (k r).run = s.run) :
    FaultsInOrder s 2 [b] succ s.run (s.complete do let r ← s.operandsRI b imm; return k r) := by
  unfold FaultsInOrder
  split_ifs with hbeyond hbad hover
  · exact complete_bind_of_error (by rw [operandsRI_eq, if_pos (by omega)])
  · have hb : 7 < b.toNat := by simpa using hbad
    exact complete_bind_of_error (by rw [operandsRI_eq, if_neg (by omega), registerOperand_error.mpr ⟨hb, rfl⟩])
  · obtain ⟨r, rfl⟩ := exists_regByte (b := b) (by simpa using hbad)
    exact complete_bind_of_error (by
      rw [operandsRI_eq, if_neg (by omega), registerOperand_regByte]; exact if_pos (by omega))
  · obtain ⟨r, rfl⟩ := exists_regByte (b := b) (by simpa using hbad)
    have hpc : s.pc.toNat ≤ 0xFC := by
      by_contra hn
      exact hover ⟨hsucc, by omega⟩
    exact ⟨k (r, imm), complete_bind_of_ok (operandsRI_ok.mpr ⟨hpc, rfl, rfl⟩), hk _⟩

theorem faultsInOrder_operandsRR {s : State} {b1 b2 : Byte} {k : RegIdx × RegIdx → State} {succ : Prop} [Decidable succ]
    (hsucc : succ) (hk : ∀ r, (k r).run = s.run) :
    FaultsInOrder s 2 [b1, b2] succ s.run (s.complete do let r ← s.operandsRR b1 b2; return k r) := by
  unfold FaultsInOrder
  split_ifs with hbeyond hbad hover
  · exact complete_bind_of_error (by rw [operandsRR_eq, if_pos (by omega)])
  · refine complete_bind_of_error ?_
    rw [operandsRR_eq, if_neg (by omega)]
    by_cases h1 : 7 < b1.toNat
    · rw [registerOperand_error.mpr ⟨h1, rfl⟩]
    · have h2 : 7 < b2.toNat := by simpa [h1] using hbad
      obtain ⟨r1, rfl⟩ := exists_regByte (b := b1) (not_lt.mp h1)
      rw [registerOperand_regByte, registerOperand_error.mpr ⟨h2, rfl⟩]
  · obtain ⟨r1, rfl⟩ := exists_regByte (b := b1) (not_lt.mp fun h => hbad ⟨b1, by simp, h⟩)
    obtain ⟨r2, rfl⟩ := exists_regByte (b := b2) (not_lt.mp fun h => hbad ⟨b2, by simp, h⟩)
    exact complete_bind_of_error (by
      rw [operandsRR_eq, if_neg (by omega), registerOperand_regByte, registerOperand_regByte]; exact if_pos (by omega))
  · obtain ⟨r1, rfl⟩ := exists_regByte (b := b1) (not_lt.mp fun h => hbad ⟨b1, by simp, h⟩)
    obtain ⟨r2, rfl⟩ := exists_regByte (b := b2) (not_lt.mp fun h => hbad ⟨b2, by simp, h⟩)
    have hpc : s.pc.toNat ≤ 0xFC := by
      by_contra hn
      exact hover ⟨hsucc, by omega⟩
    exact ⟨k (r1, r2), complete_bind_of_ok (operandsRR_ok.mpr ⟨hpc, rfl, rfl⟩), hk _⟩

/-- Settles O41: each instruction is its operand form's checks and then its own next state. -/
theorem operandChecksInOrder : Obligations.OperandChecksInOrder := by
  intro i s
  cases i with
  | hlt => exact faultsInOrder_next (t := s.halt) (by decide)
  | ret => exact faultsInOrder_next (t := s.popPc) (by decide)
  | iret =>
    have hrun := faultsInOrder_next (s := s) (t := s.interruptReturn)
      (succ := Mnemonic.iret ∈ ([.ldi, .mul, .add, .st, .prn, .pra, .push, .pop, .call] : List Mnemonic)) (by decide)
    rwa [run_interruptReturn] at hrun
  | jmp a => exact faultsInOrder_operandRJump (by simp [Instr.mnemonic]) fun _ => rfl
  | ldi d imm => exact faultsInOrder_operandsRI (by simp [Instr.mnemonic]) fun _ => rfl
  | mul a b | add a b | st a b => exact faultsInOrder_operandsRR (by simp [Instr.mnemonic]) fun _ => rfl
  | prn a | pra a | push a | pop a | call a => exact faultsInOrder_operandR (by simp [Instr.mnemonic]) fun _ => rfl

/-- Settles O43: a selector that is neither ADD nor MUL is the constructor for the others. -/
theorem aluFunction : Obligations.AluFunction := by
  intro a b
  refine ⟨⟨_, rfl, BitVec.toNat_ofNat ..⟩, ⟨_, rfl, BitVec.toNat_ofNat ..⟩, fun sel hadd hmul => ?_⟩
  cases sel with
  | add => exact absurd rfl hadd
  | mul => exact absurd rfl hmul
  | other code => rfl

end Sys2Proof.Machine

/-! ### The cycle and the step (40_cycle_engine.md R400..R407, 60_exceptions.md R702..R708, R723) -/

namespace Sys2Proof.Machine

/-! #### A cycle has a next state -/

theorem complete_next (s : State) (x : Except FaultReason State) : ∃ t, s.complete x = .next t := by
  cases x with
  | ok t => exact ⟨t, rfl⟩
  | error e => exact ⟨s.raiseFault e, rfl⟩

/-- Every instruction has a next state: it completes, or its checks fail and the fault-stop is that state (R405). -/
theorem exec_next (i : Instr) (s : State) : ∃ t, exec i s = .next t := by
  cases i with
  | hlt | ret | iret => exact ⟨_, rfl⟩
  | ldi | mul | add | prn | pra | push | pop | call | jmp | st => exact complete_next s _

/-- Settles O22: entry, the fault-stop of bytes that do not decode, and every instruction have a next state. -/
theorem runningCycleNeverStuck : Obligations.RunningCycleNeverStuck := by
  intro oc s
  cases hdue : s.interruptDue with
  | some i => exact ⟨_, cycleWith_of_due oc hdue⟩
  | none =>
    rw [cycleWith_of_quiet oc hdue]
    cases hdec : decodeWith oc s.fetchBytes with
    | ok p => exact (exec_next p.1 s.fetchOpcode).imp fun _ => (fetchExecuteWith_of_decodes hdec).trans
    | error e => exact ⟨_, fetchExecuteWith_of_refused hdec⟩

/-- Settles O19: the interrupt check finds that line, and the cycle is its entry. -/
theorem lowestLineIsServiced : Obligations.LowestLineIsServiced := by
  intro oc s i hie hset hlower
  exact cycleWith_of_due oc (interruptDue_some.mpr ⟨hie, hset, hlower⟩)

/-! #### What a step is -/

/-- A move depends on the host only through the next move and on what is left once it is taken. -/
theorem moveWith_congr (oc : OpcodeMap) (host : HostSchedule) {s t : State}
    (hmove : s.nextMoveWith host = t.nextMoveWith host) (htake : s.takeMove = t.takeMove) :
    s.moveWith oc host = t.moveWith oc host := by
  unfold State.moveWith
  rw [hmove, htake]

theorem stepWith_running (oc : OpcodeMap) (host : HostSchedule) {s : State} (hrun : s.run = .running) :
    s.stepWith oc host = s.moveWith oc host := by
  simp [State.stepWith, hrun]

/-- A running machine whose next move is a timer event sets IS bit 0. -/
theorem stepWith_timerEvent {oc : OpcodeMap} {host : HostSchedule} {s : State} (hrun : s.run = .running)
    (h : s.nextMoveWith host = .timerEvent) : s.stepWith oc host = .next s.takeMove.raiseTimerEvent := by
  simp [stepWith_running oc host hrun, State.moveWith, h]

/-- A running machine whose next move raises a line sets that line's bit of IS, where it is wired. -/
theorem stepWith_raiseLine {oc : OpcodeMap} {host : HostSchedule} {s : State} {i : Line} (hrun : s.run = .running)
    (h : s.nextMoveWith host = .raiseLine i) :
    s.stepWith oc host = if lineWired i then .next (s.takeMove.raiseLine i) else .refused (.lineNotWired i) := by
  simp [stepWith_running oc host hrun, State.moveWith, h]

/-- The scheduled move is the one the schedule names, a line that is not wired counting as a cycle (R704, R723). -/
theorem scheduledMove_eq (host : HostSchedule) (n : Nat) :
    scheduledMove host n = if ∃ j, host n = .raiseLine j ∧ lineWired j = false then .cycle else host n := by
  unfold scheduledMove
  cases host n with
  | cycle => simp
  | timerEvent => simp
  | raiseLine i => cases h : lineWired i <;> simp [h]

/-- Settles O12: each listed move by its own lemma; with none listed, the scheduled move is the next one either way. -/
theorem stepIsOneMove : Obligations.StepIsOneMove := by
  intro oc host s ms i hrun
  refine ⟨stepWith_cycle hrun rfl, stepWith_timerEvent hrun rfl, stepWith_raiseLine hrun rfl, ?_⟩
  rw [stepWith_running oc host (s := s.setMoves []) hrun, ← scheduledMove_eq, stepWith_running oc host]
  · exact moveWith_congr oc host rfl rfl
  · exact hrun

/-- Settles O13: the run state alone answers. -/
theorem noMoveOnceStopped : Obligations.NoMoveOnceStopped :=
  fun _ _ _ _ => ⟨rfl, rfl⟩

/-! #### A cycle that fetches -/

section Fetching

variable {s : State} (hrun : s.run = .running) (hmove : s.nextMove = .cycle)
  (hquiet : s.ie = true → s.reg 6 &&& s.reg 5 = 0)

include hrun hmove hquiet

/-- A cycle in which no interrupt is due fetches and executes. -/
theorem step_of_quiet : step s = s.takeMove.fetchExecuteWith defaultOpcode :=
  (stepWith_cycle hrun hmove).trans (cycleWith_of_quiet defaultOpcode (interruptDue_none.mpr hquiet))

theorem step_of_decodes {i : Instr} {rest : List Byte} (h : decode s.fetchBytes = .ok (i, rest)) :
    step s = exec i { s.takeMove with ir := s.mem.read s.pc.toNat } :=
  (step_of_quiet hrun hmove hquiet).trans (fetchExecuteWith_of_decodes (s := s.takeMove) h)

theorem step_of_refused {e : DecodeError} (h : decode s.fetchBytes = .error e) :
    step s = .next { s.takeMove with
      ir := s.mem.read s.pc.toNat, run := .faulted (decodeFault e) s.pc (s.mem.read s.pc.toNat) } :=
  (step_of_quiet hrun hmove hquiet).trans (fetchExecuteWith_of_refused (s := s.takeMove) h)

end Fetching

/-- Settles O14. -/
theorem stepRunsDecodedInstruction : Obligations.StepRunsDecodedInstruction :=
  fun _ _ _ hrun hmove hquiet h => step_of_decodes hrun hmove hquiet h

/-- What is fetched begins with the bytes that stand at PC, at most three and within 0xFF (R300). -/
theorem fetchBytes_of_placed {s : State} {b : Byte} {bs : List Byte} (hlen : bs.length ≤ 2)
    (hpc : s.pc.toNat + bs.length ≤ 0xFF)
    (hread : ∀ (k : Nat) (v : Byte), (b :: bs)[k]? = some v → s.mem.read (s.pc.toNat + k) = v) :
    ∃ rest, s.fetchBytes = b :: (bs ++ rest) := by
  have h0 : s.memRead s.pc = b := hread 0 b rfl
  rw [fetchBytes_eq, h0]
  match bs, hlen, hpc, hread with
  | [], _, _, _ => exact ⟨_, rfl⟩
  | [b1], _, hpc, hread =>
    have hpc1 : s.pc.toNat + 1 ≤ 0xFF := hpc
    rw [if_pos hpc1, hread 1 b1 rfl]
    exact ⟨_, rfl⟩
  | [b1, b2], _, hpc, hread =>
    have hpc2 : s.pc.toNat + 2 ≤ 0xFF := hpc
    rw [if_pos (by omega), if_pos hpc2, hread 1 b1 rfl, hread 2 b2 rfl]
    exact ⟨[], rfl⟩

/-- Settles O15: what is fetched is the encoding and a rest, and it decodes to the instruction. -/
theorem stepRunsPlacedInstruction : Obligations.StepRunsPlacedInstruction := by
  intro s i hrun hmove hquiet hpc hread
  have hlen : i.operandBytes.length ≤ 2 := length_operandBytes i ▸ operandCount_le_two _
  obtain ⟨rest, hfetch⟩ := fetchBytes_of_placed hlen hpc hread
  have hdec : decode s.fetchBytes = .ok (i, rest) :=
    (congrArg decode hfetch).trans (decodeOfEncode defaultOpcode defaultOpcode_injective i rest)
  have hop : s.mem.read s.pc.toNat = defaultOpcode i.mnemonic := hread 0 _ rfl
  rw [step_of_decodes hrun hmove hquiet hdec, hop]

/-- Settles O16: the byte at PC is looked up to nothing. -/
theorem unknownOpcodeFaultStops : Obligations.UnknownOpcodeFaultStops := by
  intro s hrun hmove hquiet hno
  have hdec : decode s.fetchBytes = .error .unknownOpcode := by
    rw [fetchBytes_eq]
    exact decodeWith_of_lookup_none (lookup_none.mpr hno) _
  exact step_of_refused hrun hmove hquiet hdec

/-- Settles O17: of the bytes after the opcode fewer lie within 0xFF than the format counts. -/
theorem operandBeyondTopFaultStops : Obligations.OperandBeyondTopFaultStops := by
  intro s m hrun hmove hquiet hop hbeyond
  have hlookup : lookup defaultOpcode (s.memRead s.pc) = some m := (lookup_some_iff defaultOpcode_injective).mpr hop
  have hcount := operandCount_le_two m.format
  have hdec : decode s.fetchBytes = .error .missingByte := by
    rw [fetchBytes_eq, decode, List.cons_append, decodeWith_of_lookup hlookup]
    refine takeOperands_of_lt m ?_
    rw [if_neg (show ¬ s.pc.toNat + 2 ≤ 0xFF by omega), List.append_nil]
    split
    · rw [List.length_singleton]; omega
    · rw [List.length_nil]; omega
  exact step_of_refused hrun hmove hquiet hdec

/-! #### Events from outside the CORE -/

theorem getLsbD_lineBit : ∀ i k : Fin 8, (lineBit i).getLsbD k.val = decide (k = i) := by decide

/-- A timer event is line 0 raised (R702, R704). -/
theorem raiseTimerEvent_eq (s : State) : s.raiseTimerEvent = s.raiseLine 0 := rfl

/-- Raising a line sets its bit of IS and leaves the others. -/
theorem getLsbD_raiseLine (s : State) (i : Line) (k : Fin 8) :
    ((s.raiseLine i).reg 6).getLsbD k.val = (decide (k = i) || (s.reg 6).getLsbD k.val) := by
  rw [reg_raiseLine, if_pos rfl, BitVec.getLsbD_or, getLsbD_lineBit, Bool.or_comm]

theorem sameRegsBut_raiseLine (s : State) (i : Line) : SameRegsBut [6] s (s.raiseLine i) := by
  intro r hr
  rw [reg_raiseLine, if_neg (List.ne_of_not_mem_cons hr)]

/-- A line raised twice is as raised once (R702). -/
theorem raiseLine_raiseLine (s : State) (i : Line) : (s.raiseLine i).raiseLine i = s.raiseLine i := by
  refine state_ext (fun r => ?_) rfl rfl rfl rfl rfl rfl rfl rfl rfl
  rw [reg_raiseLine, reg_raiseLine, reg_raiseLine]
  split
  · rw [if_pos rfl, BitVec.or_assoc, BitVec.or_self]
  · rfl

/-- Settles O20: it is line 0 raised, which twice is as once. -/
theorem timerEventSetsBitZero : Obligations.TimerEventSetsBitZero := by
  intro s ms hrun
  have hstep (ms : List HostMove) : step (s.setMoves (.timerEvent :: ms)) = .next ((s.setMoves ms).raiseLine 0) := by
    rw [← raiseTimerEvent_eq]
    exact stepWith_timerEvent hrun rfl
  refine ⟨⟨_, hstep ms, getLsbD_raiseLine s 0, sameRegsBut_raiseLine s 0, rfl, rfl, rfl, rfl, rfl, rfl, fun _ => rfl,
    rfl, rfl⟩, _, hstep (.timerEvent :: ms), ?_⟩
  rw [hstep ms, ← raiseLine_raiseLine (s.setMoves ms) 0]
  exact stepWith_timerEvent hrun rfl

/-- Settles O21: a line is wired when it is not 0 and in EXTRA_IRQ_LINES. -/
theorem raisedLineSetsItsBit : Obligations.RaisedLineSetsItsBit := by
  intro s i ms hrun
  have hstep : step (s.setMoves (.raiseLine i :: ms)) =
      if lineWired i then .next ((s.setMoves ms).raiseLine i) else .refused (.lineNotWired i) :=
    stepWith_raiseLine hrun rfl
  have hwired : lineWired i = true ↔ i ≠ 0 ∧ Config.extraIrqLine i = true := by simp [lineWired]
  split
  · next h =>
    exact ⟨_, hstep.trans (if_pos (hwired.mpr h)), getLsbD_raiseLine s i, sameRegsBut_raiseLine s i, rfl, rfl, rfl, rfl,
      rfl, rfl, fun _ => rfl, rfl, rfl⟩
  · next h => exact hstep.trans (if_neg fun hw => h (hwired.mp hw))

end Sys2Proof.Machine

/-! ### Reset, launch and the invariant (70_reset_and_hazards.md, 20_memory.md R217) -/

namespace Sys2Proof.Machine

/-- Settles O8. -/
theorem resetState : Obligations.ResetState :=
  ⟨by decide, rfl, rfl, rfl, rfl, rfl, rfl, rfl⟩

/-- A running machine's state is consistent with its run state. -/
theorem runConsistent_of_running {s : State} (h : s.run = .running) : s.RunConsistent := by
  simp [State.RunConsistent, h]

/-- Settles O11. -/
theorem resetMeetsInv : Obligations.ResetMeetsInv :=
  ⟨wf_reset, rfl, runConsistent_of_running rfl⟩

/-- Bytes written from `a` on stand there in order, as far as the address space goes. -/
theorem read_writeFrom (m : Memory) (a : Nat) (vs : List Byte) (k : Nat) (hk : k < vs.length) (ha : a + k ≤ 0xFF) :
    (Memory.writeFrom m a vs).read (a + k) = vs[k] := by
  induction vs generalizing m a k with
  | nil => exact absurd hk (Nat.not_lt_zero k)
  | cons v vs ih =>
    rw [Memory.writeFrom, if_pos (by omega)]
    cases k with
    | zero => exact (read_writeFrom_below _ _ _ vs (Nat.lt_succ_self a)).trans (read_write_same m a v)
    | succ k =>
      rw [Nat.add_left_comm, Nat.add_comm k]
      exact ih _ (a + 1) k (Nat.lt_of_succ_lt_succ hk) (by omega)

/-- Settles O9: the loader's writes stand in order and keep the canonical form. -/
theorem launchHoldsImage : Obligations.LaunchHoldsImage := by
  intro image
  refine ⟨fun a => ?_, ⟨wf_writeFrom (by decide) 0 image.toList, rfl, runConsistent_of_running rfl⟩, rfl⟩
  have hread := read_writeFrom [] 0 image.toList a.val (by simp) (by omega)
  rwa [Nat.zero_add, Vector.getElem_toList] at hread

/-- A fault-stop meets the invariant where IR holds the byte at PC and the reason is `UnknownOpcode` exactly when that byte is no
opcode. -/
theorem inv_raiseFault {s : State} {e : FaultReason} (hwf : s.mem.wf) (hov : s.ov = false) (hir : s.memRead s.pc = s.ir)
    (halu : e ≠ .aluUnsupported) (hop : e = .unknownOpcode ↔ lookup defaultOpcode s.ir = none) :
    (s.raiseFault e).Inv :=
  ⟨hwf, hov, rfl, rfl, hir, halu, hop⟩

/-- What is fetched and decodes is the byte at PC, the instruction's opcode, and then its operand bytes. -/
theorem decodes_at_pc {oc : OpcodeMap} {s : State} {i : Instr} {rest : List Byte}
    (h : decodeWith oc s.fetchBytes = .ok (i, rest)) : lookup oc (s.memRead s.pc) = some i.mnemonic := by
  rw [fetchBytes_eq] at h
  exact (decodeWith_ok h).1

theorem refused_at_pc {oc : OpcodeMap} {s : State} {e : DecodeError} (h : decodeWith oc s.fetchBytes = .error e) :
    e = .unknownOpcode ↔ lookup oc (s.memRead s.pc) = none := by
  rw [fetchBytes_eq] at h
  exact decodeWith_error h

/-- An instruction that runs where its opcode was fetched ends in a state that meets the invariant. -/
theorem inv_exec {i : Instr} {s t : State} (hwf : s.mem.wf) (hov : s.ov = false) (hrun : s.run = .running)
    (hir : s.memRead s.pc = s.ir) (hop : lookup defaultOpcode s.ir = some i.mnemonic) (h : exec i s = .next t) : t.Inv := by
  rcases run_exec_cases h with ⟨e, he, rfl⟩ | ⟨rfl, rfl⟩ | ⟨-, hsame⟩
  · refine inv_raiseFault hwf hov hir (operandFault_ne_alu he) (iff_of_false (operandFault_ne_unknown he) ?_)
    rw [hop]
    exact nofun
  · exact ⟨hwf, hov, (opcode_of_lookup hop).symm, hir⟩
  · obtain ⟨-, hov', -⟩ := exec_keeps h
    exact ⟨wf_exec h hwf, hov'.trans hov, runConsistent_of_running (hsame.trans hrun)⟩

/-- A cycle from a running state ends in a state that meets the invariant. -/
theorem inv_cycleTo {s t : State} (hwf : s.mem.wf) (hov : s.ov = false) (hrun : s.run = .running)
    (h : CycleTo defaultOpcode s t) : t.Inv := by
  cases h with
  | entry i due result =>
    subst result
    exact ⟨wf_interruptEntry hwf i, (ov_interruptEntry s i).trans hov,
      runConsistent_of_running ((run_interruptEntry s i).trans hrun)⟩
  | instr i rest quiet decodes runs =>
    exact inv_exec (s := s.fetchOpcode) hwf hov hrun rfl (decodes_at_pc decodes) runs
  | illegal e quiet refused result =>
    subst result
    have hop := refused_at_pc refused
    refine inv_raiseFault (s := s.fetchOpcode) hwf hov rfl ?_ (Iff.trans ?_ hop)
    · cases e <;> exact nofun
    · cases e <;> simp [decodeFault]

/-- Settles O10: events leave memory, `ov` and Running; a cycle ends as `inv_cycleTo` says. -/
theorem stepKeepsInv : Obligations.StepKeepsInv := by
  rintro s t ⟨hwf, hov, -⟩ h
  obtain ⟨hrun, hto⟩ := step_cases h
  cases hto with
  | cycle asked result => exact inv_cycleTo (s := s.takeMove) hwf hov hrun result
  | timer asked result => exact result ▸ ⟨hwf, hov, runConsistent_of_running hrun⟩
  | line i asked wired result => exact result ▸ ⟨hwf, hov, runConsistent_of_running hrun⟩

end Sys2Proof.Machine

/-! ### What each instruction does where it completes (41_alu_and_load.md .. 44_control.md) -/

namespace Sys2Proof.Machine

/-! #### Shared facts -/

/-- The advance of PC is exact where the sum lies within the address space (R404, R406). -/
theorem toNat_pc_advance {s : State} {n : Nat} (h : s.pc.toNat + n ≤ 0xFF) : (s.advance n).pc.toNat = s.pc.toNat + n := by
  rw [pc_advance, BitVec.toNat_add, BitVec.toNat_ofNat]
  omega

theorem toNat_sub_one (x : Byte) : (x - 1).toNat = (x.toNat + 255) % 256 := by bv_omega

theorem toNat_add_one (x : Byte) : (x + 1).toNat = (x.toNat + 1) % 256 := by bv_omega

theorem sameRegsBut_setReg (s : State) (r : RegIdx) (v : Byte) : SameRegsBut [r] s (s.setReg r v) :=
  fun _ hq => reg_setReg_ne s v (List.ne_of_not_mem_cons hq)

theorem sameRegsBut_push (s : State) (v : Byte) : SameRegsBut [7] s (s.push v) :=
  fun q hq => (reg_push s v q).trans (if_neg (List.ne_of_not_mem_cons hq))

/-- `PushReg(r)` pushes the value of `r` after the decrement, for R7 the lowered one (R206). -/
theorem pushReg_eq_push (s : State) (r : RegIdx) : s.pushReg r = s.push (if r = 7 then s.reg 7 - 1 else s.reg r) :=
  congrArg s.push (reg_decSp s r)

/-! #### LDI, ADD, MUL, ST -/

/-- Settles O23. -/
theorem ldiResult : Obligations.LdiResult := by
  intro s d imm hpc
  exact ⟨_, exec_of_completes (.ldi d imm hpc), reg_setReg_same s d imm, sameRegsBut_setReg s d imm,
    toNat_pc_advance (s := s) (by omega), rfl, rfl, fun _ => rfl, rfl, rfl, rfl, rfl, rfl⟩

/-- Settles O24. -/
theorem addResult : Obligations.AddResult := by
  intro s a b hpc
  refine ⟨_, exec_of_completes (.add a b hpc), ?_, sameRegsBut_setReg s a _, toNat_pc_advance (s := s) (by omega), rfl, rfl,
    fun _ => rfl, rfl, rfl, rfl, rfl, rfl⟩
  rw [reg_advance, reg_setReg_same, BitVec.toNat_ofNat]

/-- Settles O25. -/
theorem mulResult : Obligations.MulResult := by
  intro s a b hpc
  refine ⟨_, exec_of_completes (.mul a b hpc), ?_, sameRegsBut_setReg s a _, toNat_pc_advance (s := s) (by omega), rfl, rfl,
    fun _ => rfl, rfl, rfl, rfl, rfl, rfl⟩
  rw [reg_advance, reg_setReg_same, BitVec.toNat_ofNat]

/-- Settles O30. -/
theorem stResult : Obligations.StResult := by
  intro s a b hpc
  exact ⟨_, exec_of_completes (.st a b hpc), read_write_same .., fun _ hk => read_write_ne s.mem _ hk, fun _ _ => rfl,
    toNat_pc_advance (s := s) (by omega), rfl, rfl, rfl, rfl, rfl, rfl, rfl⟩

/-! #### PRN, PRA -/

/-- Settles O26. -/
theorem prnResult : Obligations.PrnResult := by
  intro s a hpc
  exact ⟨_, exec_of_completes (.prn a hpc), rfl, fun _ _ => rfl, toNat_pc_advance (s := s) (by omega), rfl, fun _ => rfl,
    rfl, rfl, rfl, rfl, rfl⟩

/-- Settles O27. -/
theorem praResult : Obligations.PraResult := by
  intro s a hpc
  exact ⟨_, exec_of_completes (.pra a hpc), rfl, fun _ _ => rfl, toNat_pc_advance (s := s) (by omega), rfl, fun _ => rfl,
    rfl, rfl, rfl, rfl, rfl⟩

/-! #### PUSH, POP -/

/-- Settles O28: it is a push of the register's value after the decrement. -/
theorem pushResult : Obligations.PushResult := by
  intro s a hpc
  have hsp : (s.pushReg a).reg 7 = s.reg 7 - 1 := reg_pushReg s a 7
  refine ⟨_, exec_of_completes (.push a hpc), ?_, ?_, fun k hk => (read_pushReg s a k).trans (if_neg hk),
    sameRegsBut_push s (s.decSp.reg a), toNat_pc_advance (s := s) (by omega), rfl, rfl, rfl, rfl, rfl, rfl, rfl⟩
  · rw [reg_advance, hsp, toNat_sub_one]
  · rw [reg_advance, hsp, mem_advance, pushReg_eq_push, read_push]
    exact if_pos rfl

/-- Settles O29. -/
theorem popResult : Obligations.PopResult := by
  intro s d hpc
  have hreg (q : RegIdx) := reg_popReg s d q
  refine ⟨_, exec_of_completes (.pop d hpc), ?_, fun q hq => ?_, toNat_pc_advance (s := s) (by omega), rfl, rfl,
    fun _ => rfl, rfl, rfl, rfl, rfl, rfl⟩
  · split
    · next hd => rw [reg_advance, hreg, if_pos rfl, if_pos hd, toNat_add_one]; rfl
    · next hd =>
      constructor
      · rw [reg_advance, hreg, if_neg hd, if_pos rfl]; rfl
      · rw [reg_advance, hreg, if_pos rfl, if_neg hd, toNat_add_one]
  · obtain ⟨hd, h7⟩ : q ≠ d ∧ q ≠ 7 := by simpa using hq
    rw [reg_advance, hreg, if_neg h7, if_neg hd]

/-! #### JMP, CALL, RET, IRET, HLT -/

/-- Settles O31. -/
theorem jmpResult : Obligations.JmpResult :=
  fun _ a hpc => exec_of_completes (.jmp a hpc)

/-- Settles O32: the return address lies within the address space, and the register is read after the push. -/
theorem callResult : Obligations.CallResult := by
  intro s a hpc
  have hsp : (s.push (s.pc + 2)).reg 7 = s.reg 7 - 1 := reg_push s (s.pc + 2) 7
  refine ⟨_, exec_of_completes (.call a hpc), ?_, ?_, ?_, fun k hk => (read_push s _ k).trans (if_neg hk),
    sameRegsBut_push s (s.pc + 2), rfl, rfl, rfl, rfl, rfl, rfl, rfl⟩
  · rw [reg_setPc, hsp, toNat_sub_one]
  · rw [reg_setPc, hsp, mem_setPc, read_push, if_pos rfl]
    exact toNat_pc_advance (s := s) (n := 2) (by omega)
  · rw [pc_setPc, reg_setPc, hsp]
    exact reg_push s (s.pc + 2) a

/-- Settles O33. -/
theorem retResult : Obligations.RetResult := by
  intro s
  refine ⟨_, exec_of_completes .ret, rfl, ?_, fun q hq => ?_, rfl, rfl, fun _ => rfl, rfl, rfl, rfl, rfl, rfl⟩
  · rw [reg_popPc, if_pos rfl, toNat_add_one]
  · rw [reg_popPc, if_neg (List.ne_of_not_mem_cons hq)]

/-- Settles O34: the registers and PC by the lemmas about the return. -/
theorem iretResult : Obligations.IretResult := by
  intro s
  exact ⟨_, exec_of_completes .iret, fun r hr => (reg_interruptReturn s r).trans (if_neg hr), pc_interruptReturn s,
    reg_interruptReturn s 7, ie_interruptReturn s, ir_interruptReturn s, ov_interruptReturn s, run_interruptReturn s,
    out_interruptReturn s, fun a => congrArg (Memory.read · a) (mem_interruptReturn s), moves_interruptReturn s,
    turn_interruptReturn s⟩

/-- Settles O35. -/
theorem hltResult : Obligations.HltResult :=
  fun _ => exec_of_completes .hlt

/-- Settles O57: by the instructions that complete; a fault-stop is neither Running nor Halted. -/
theorem pcAfterInstruction : Obligations.PcAfterInstruction := by
  intro i s t hrun h hdone
  rcases exec_cases h with ⟨e, -, rfl⟩ | hc
  · simp at hdone
  · cases hc with
    | hlt => rfl
    | ldi d imm hpc | mul a b hpc | add a b hpc | st a b hpc => exact toNat_pc_advance (s := s) (by omega)
    | prn a hpc | pra a hpc | push a hpc | pop d hpc => exact toNat_pc_advance (s := s) (by omega)
    | jmp a hpc => exact ⟨a, rfl, rfl⟩
    | call a hpc => exact ⟨a, rfl, rfl⟩
    | ret =>
      have hsp : s.popPc.reg 7 - 1 = s.reg 7 := by rw [reg_popPc, if_pos rfl, BitVec.add_sub_cancel]
      exact congrArg s.memRead hsp.symm
    | iret =>
      have hsp : s.interruptReturn.reg 7 - 1 = s.memRead (s.reg 7) + 8 := by
        rw [reg_interruptReturn, if_pos rfl]
        generalize s.memRead (s.reg 7) = x
        bv_omega
      exact (pc_interruptReturn s).trans (congrArg s.memRead hsp.symm)

/-! #### Round trips -/

/-- Settles O47: the byte popped is the byte pushed, and R7 is lowered and raised. -/
theorem pushThenPop : Obligations.PushThenPop := by
  intro s n m hn hm hpc
  have hpc2 : ((s.pushReg n).advance 2).pc.toNat = s.pc.toNat + 2 := toNat_pc_advance (s := s) (by omega)
  have hsp : (s.pushReg n).reg sp = s.reg sp - 1 := reg_pushReg s n sp
  have hpushed : (s.pushReg n).memRead (s.reg sp - 1) = s.reg n := by
    rw [pushReg_eq_push, State.memRead, read_push, if_pos rfl, if_neg hn]
  have hreg (q : RegIdx) := reg_popReg ((s.pushReg n).advance 2) m q
  simp only [reg_advance, memRead_advance, hsp, hpushed] at hreg
  refine ⟨_, _, exec_of_completes (.push n (by omega)), exec_of_completes (.pop m (by omega)), ?_, ?_, fun q hq => ?_, ?_⟩
  · rw [reg_advance, hreg, if_neg hm, if_pos rfl]
  · rw [reg_advance, hreg, if_pos rfl, if_neg hm, BitVec.sub_add_cancel]
  · rw [reg_advance, hreg]
    split
    · next h7 => rw [BitVec.sub_add_cancel, h7]
    · next h7 => rw [if_neg (List.ne_of_not_mem_cons hq), reg_pushReg, if_neg h7]
  · exact (toNat_pc_advance (s := (s.pushReg n).advance 2) (n := 2) (by omega)).trans (by omega)

/-- Settles O48: the byte popped is the return address that CALL pushed. -/
theorem callThenRet : Obligations.CallThenRet := by
  intro s t v a hpc hcall hsp hbyte
  obtain rfl := Host.Outcome.next.inj ((exec_of_completes (.call a hpc)).symm.trans hcall)
  have h7 : (s.push (s.pc + 2)).reg 7 = s.reg 7 - 1 := reg_push s (s.pc + 2) 7
  rw [reg_setPc, h7] at hsp hbyte
  refine ⟨_, exec_of_completes .ret, ?_, ?_⟩
  · rw [pc_popPc, hsp, hbyte, memRead_setPc, State.memRead, read_push, if_pos rfl]
    exact toNat_pc_advance (s := s) (n := 2) (by omega)
  · rw [reg_popPc, if_pos rfl, hsp, BitVec.sub_add_cancel]

end Sys2Proof.Machine

/-! ### Interrupt entry and its return (60_exceptions.md R710, 44_control.md R603) -/

namespace Sys2Proof.Machine

/-! #### The slots of a run of pushes -/

theorem sub_ofNat_succ (x : Byte) (k : Nat) : x - 1 - BitVec.ofNat 8 k = x - BitVec.ofNat 8 (k + 1) := by
  rw [BitVec.ofNat_add]
  generalize BitVec.ofNat 8 k = n
  bv_omega

/-- A slot lies elsewhere than one fewer than 256 below it. -/
theorem ne_sub_ofNat (x : Byte) {n : Nat} (h0 : 0 < n) (h : n < 256) : x.toNat ≠ (x - BitVec.ofNat 8 n).toNat := by
  rw [BitVec.toNat_sub, BitVec.toNat_ofNat]
  omega

/-- A run of pushes below a slot leaves it, while it does not go round the address space. -/
theorem read_foldl_pushReg_above (rs : List RegIdx) (s : State) (hlen : rs.length < 256) :
    (rs.foldl State.pushReg s).mem.read (s.reg sp).toNat = s.mem.read (s.reg sp).toNat :=
  read_foldl_pushReg rs s _ fun k hk => ne_sub_ofNat _ (Nat.succ_pos k) (by omega)

/-- The slot of the `k`-th register pushed holds its value, R7's the address of the slot itself (R206). -/
theorem memRead_foldl_pushReg (rs : List RegIdx) (s : State) (hlen : rs.length ≤ 256) (k : Nat) (hk : k < rs.length) :
    (rs.foldl State.pushReg s).memRead (s.reg sp - BitVec.ofNat 8 (k + 1)) =
      if rs[k] = sp then s.reg sp - BitVec.ofNat 8 (k + 1) else s.reg rs[k] := by
  induction rs generalizing s k with
  | nil => exact absurd hk (Nat.not_lt_zero k)
  | cons r rs ih =>
    have hsp : (s.pushReg r).reg sp = s.reg sp - 1 := reg_pushReg s r sp
    rw [List.length_cons] at hlen hk
    rw [List.foldl_cons]
    cases k with
    | zero =>
      have habove := read_foldl_pushReg_above rs (s.pushReg r) (by omega)
      rw [hsp, read_pushReg, if_pos rfl, reg_decSp] at habove
      exact habove
    | succ k =>
      have hslot := ih (s.pushReg r) (by omega) k (by omega)
      rw [hsp, sub_ofNat_succ, reg_pushReg] at hslot
      rw [hslot, List.getElem_cons_succ]
      split
      · rfl
      · rfl

/-! #### The frame of interrupt entry -/

/-- Interrupt entry up to the push of PC, before the registers are pushed (R710). -/
def State.entryWithPc (s : State) (i : Line) : State :=
  ((s.setReg is (s.reg is &&& ~~~ lineBit i)).setIe false).push s.pc

/-- The rest of interrupt entry pushes the registers and goes to the handler (R710). -/
theorem interruptEntry_eq (s : State) (i : Line) :
    s.interruptEntry i = (pushOrder.foldl State.pushReg (s.entryWithPc i)).setPc
      ((pushOrder.foldl State.pushReg (s.entryWithPc i)).memRead (vectorAddress i)) := by
  rw [State.interruptEntry]
  rfl

/-- With PC pushed R7 is one lower, and every other register is as entry leaves it. -/
theorem reg_entryWithPc (s : State) (i : Line) (q : RegIdx) :
    (s.entryWithPc i).reg q = if q = sp then s.reg sp - 1 else (s.interruptEntry i).reg q := by
  rw [State.entryWithPc, reg_push, reg_setIe, reg_setIe, reg_setReg_ne s _ (by decide), reg_setReg, reg_interruptEntry]
  split
  · rfl
  · rfl

theorem memRead_entryWithPc (s : State) (i : Line) : (s.entryWithPc i).memRead (s.reg sp - 1) = s.pc := by
  rw [State.entryWithPc, State.memRead, read_push, reg_setIe, reg_setReg_ne s _ (by decide), if_pos rfl]

/-- The first byte of the frame, the one below R7, is PC (R710). -/
theorem memRead_interruptEntry_pc (s : State) (i : Line) : (s.interruptEntry i).memRead (s.reg sp - 1) = s.pc := by
  have hsp : (s.entryWithPc i).reg sp = s.reg sp - 1 := reg_entryWithPc s i sp
  have habove := read_foldl_pushReg_above pushOrder (s.entryWithPc i) (by decide)
  rw [hsp] at habove
  rw [interruptEntry_eq, memRead_setPc, ← memRead_entryWithPc s i]
  exact habove

/-- Below it stand R0..R7 in order, as entry leaves them, R7 as the address of its own slot (R710). -/
theorem memRead_interruptEntry_reg (s : State) (i : Line) (r : RegIdx) :
    (s.interruptEntry i).memRead (s.reg sp - 1 - BitVec.ofNat 8 (r.val + 1)) = (s.interruptEntry i).reg r := by
  have hsp : (s.entryWithPc i).reg sp = s.reg sp - 1 := reg_entryWithPc s i sp
  have horder : ∀ q : Fin 8, pushOrder[q.val]'q.isLt = q := by decide
  have hslot := memRead_foldl_pushReg pushOrder (s.entryWithPc i) (by decide) r.val r.isLt
  rw [hsp, horder, reg_entryWithPc] at hslot
  rw [interruptEntry_eq, memRead_setPc, hslot, ← interruptEntry_eq]
  split
  · next h7 =>
    subst h7
    rw [reg_interruptEntry, if_pos rfl, show BitVec.ofNat 8 (sp.val + 1) = 8 from rfl]
    generalize s.reg sp = x
    bv_omega
  · rfl

/-- Settles O44: the frame by its slots, the registers and the other bytes by the lemmas about entry. -/
theorem interruptEntryFrame : Obligations.InterruptEntryFrame := by
  intro s i
  have hreg (r : RegIdx) := reg_interruptEntry s i r
  refine ⟨_, rfl, memRead_interruptEntry_pc s i, fun r => ?_, fun k => ?_, hreg 7, fun r hr => ?_,
    ie_interruptEntry s i, fun a ha => ?_, ir_interruptEntry s i, ov_interruptEntry s i, run_interruptEntry s i,
    out_interruptEntry s i, moves_interruptEntry s i, turn_interruptEntry s i⟩
  · have hslot : s.reg 7 - 2 - BitVec.ofNat 8 r.val = s.reg 7 - 1 - BitVec.ofNat 8 (r.val + 1) := by
      rw [← sub_ofNat_succ]
      generalize s.reg 7 = x
      generalize BitVec.ofNat 8 r.val = n
      bv_omega
    rw [hslot, memRead_interruptEntry_reg, hreg r, hreg 6]
    split
    · rfl
    · split
      · rfl
      · rfl
  · rw [hreg, if_neg (by decide), if_pos rfl, BitVec.getLsbD_and, BitVec.getLsbD_not, getLsbD_lineBit]
    simp
  · obtain ⟨h6, h7⟩ : r ≠ 6 ∧ r ≠ 7 := by simpa using hr
    rw [hreg, if_neg h7, if_neg h6]
  · exact read_interruptEntry_of_outside_frame s i a fun k hk => ha ⟨k, hk⟩

/-- IRET pops upward what entry pushed downward: `6 - r` above the byte over R7's slot is the slot of `r` (R603, R710). -/
theorem popped_slot (x : Byte) {r : RegIdx} (hr : r ≠ 7) :
    x - 9 + 1 + BitVec.ofNat 8 (6 - r.val) = x - 1 - BitVec.ofNat 8 (r.val + 1) := by
  have h6 : r.val < 7 := Fin.val_lt_last hr
  bv_omega

/-- Settles O46: R7 is popped first, from its own slot, which holds that slot's address; so what is popped after it is the rest of the
frame. -/
theorem iretUndoesEntry : Obligations.IretUndoesEntry := by
  intro s t i hsp hframe
  have hpc : t.memRead (s.reg 7 - 1) = s.pc := by
    have hslot := hframe 0
    rw [Fin.val_zero, BitVec.sub_zero] at hslot
    exact hslot.trans (memRead_interruptEntry_pc s i)
  have hreg (r : RegIdx) : t.memRead (s.reg 7 - 1 - BitVec.ofNat 8 (r.val + 1)) = (s.interruptEntry i).reg r := by
    have hslot := hframe r.succ
    rw [Fin.val_succ] at hslot
    exact hslot.trans (memRead_interruptEntry_reg s i r)
  have h7 : t.memRead (t.reg 7) = s.reg 7 - 9 := by
    have hslot : s.reg 7 - 9 = s.reg 7 - 1 - BitVec.ofNat 8 ((7 : RegIdx).val + 1) := by
      generalize s.reg 7 = x
      bv_omega
    have htop := hreg 7
    rw [reg_interruptEntry, if_pos rfl, ← hslot, ← hsp] at htop
    rw [htop, hsp]
  have hu (r : RegIdx) (hr : r ≠ 7) : t.interruptReturn.reg r = (s.interruptEntry i).reg r := by
    rw [reg_interruptReturn, if_neg hr, h7, popped_slot _ hr, hreg]
  refine ⟨_, exec_of_completes .iret, ?_, fun r hr => ?_, hu 6 (by decide), ie_interruptReturn t,
    fun a => congrArg (Memory.read · a) (mem_interruptReturn t), ir_interruptReturn t, ov_interruptReturn t,
    run_interruptReturn t, out_interruptReturn t, moves_interruptReturn t, turn_interruptReturn t⟩
  · have hslot : s.reg 7 - 9 + 8 = s.reg 7 - 1 := by
      generalize s.reg 7 = x
      bv_omega
    rw [pc_interruptReturn, h7, hslot, hpc]
  · have h6 : r ≠ 6 := List.ne_of_not_mem_cons hr
    by_cases hr7 : r = 7
    · subst hr7
      rw [reg_interruptReturn, if_pos rfl, h7, BitVec.sub_add_cancel]
    · rw [hu r hr7, reg_interruptEntry, if_neg hr7, if_neg h6]

end Sys2Proof.Machine

/-! ### What no step reads: `ov`, the output trace and IR (10_state.md R108, R110, R115) -/

namespace Sys2Proof.Machine

/-! #### `ov` and the output trace -/

/-- The state with `ov` put through `g` and the events `es` before its output. -/
def State.withUnread (g : Bool → Bool) (es : List OutEvent) (s : State) : State :=
  { s with ov := g s.ov, out := es ++ s.out }

section Unread

variable (g : Bool → Bool) (es : List OutEvent)

theorem emit_withUnread (s : State) (e : OutEvent) : (s.withUnread g es).emit e = (s.emit e).withUnread g es := by
  simp [State.emit, State.withUnread]

theorem interruptReturn_withUnread (s : State) :
    (s.withUnread g es).interruptReturn = s.interruptReturn.withUnread g es := by
  have hfold : popOrder.foldl State.popReg (s.withUnread g es) = (popOrder.foldl State.popReg s).withUnread g es :=
    List.foldl_hom (State.withUnread g es) fun _ _ => rfl
  rw [State.interruptReturn, State.interruptReturn, hfold]
  generalize popOrder.foldl State.popReg s = t
  rfl

theorem interruptEntry_withUnread (s : State) (i : Line) :
    (s.withUnread g es).interruptEntry i = (s.interruptEntry i).withUnread g es := by
  have hstart : (s.withUnread g es).entryWithPc i = (s.entryWithPc i).withUnread g es := rfl
  have hfold := List.foldl_hom (State.withUnread g es) (g₁ := State.pushReg) (g₂ := State.pushReg) (l := pushOrder)
    (init := s.entryWithPc i) fun _ _ => rfl
  rw [interruptEntry_eq, interruptEntry_eq, hstart, hfold]
  generalize pushOrder.foldl State.pushReg (s.entryWithPc i) = t
  rfl

theorem complete_aluInto_withUnread (s : State) (sel : AluSelector) (b1 b2 : Byte) :
    (s.withUnread g es).complete ((s.withUnread g es).aluInto sel b1 b2) =
      mapNext (State.withUnread g es) (s.complete (s.aluInto sel b1 b2)) := by
  unfold State.aluInto
  rw [show (s.withUnread g es).operandsRR b1 b2 = s.operandsRR b1 b2 from rfl]
  cases s.operandsRR b1 b2 with
  | error e => rfl
  | ok r =>
    exact complete_bind_commutes (f := State.withUnread g es) (alu sel (s.reg r.1) (s.reg r.2)) (fun _ => rfl)
      fun _ => rfl

/-- No instruction depends on `ov` or on what has been output. -/
theorem exec_withUnread (i : Instr) (s : State) :
    exec i (s.withUnread g es) = mapNext (State.withUnread g es) (exec i s) := by
  cases i with
  | hlt => rfl
  | ret => rfl
  | iret => exact congrArg Host.Outcome.next (interruptReturn_withUnread g es s)
  | mul a b => exact complete_aluInto_withUnread g es s .mul a b
  | add a b => exact complete_aluInto_withUnread g es s .add a b
  | ldi d imm => exact complete_bind_commutes (f := State.withUnread g es) (s.operandsRI d imm) (fun _ => rfl) fun _ => rfl
  | st a b => exact complete_bind_commutes (f := State.withUnread g es) (s.operandsRR a b) (fun _ => rfl) fun _ => rfl
  | jmp a => exact complete_bind_commutes (f := State.withUnread g es) (s.operandRJump a) (fun _ => rfl) fun _ => rfl
  | prn a | pra a =>
    exact complete_bind_commutes (f := State.withUnread g es) (s.operandR a) (fun _ => rfl)
      fun r => congrArg (State.advance · 2) (emit_withUnread g es s _)
  | push a | pop a | call a =>
    exact complete_bind_commutes (f := State.withUnread g es) (s.operandR a) (fun _ => rfl) fun _ => rfl

/-- No cycle does: what is fetched and the interrupt check do not see them. -/
theorem cycleWith_withUnread (oc : OpcodeMap) (s : State) :
    (s.withUnread g es).cycleWith oc = mapNext (State.withUnread g es) (s.cycleWith oc) := by
  cases hdue : s.interruptDue with
  | some i =>
    rw [cycleWith_of_due oc hdue, cycleWith_of_due (s := s.withUnread g es) oc hdue, interruptEntry_withUnread, mapNext_next]
  | none =>
    rw [cycleWith_of_quiet oc hdue, cycleWith_of_quiet (s := s.withUnread g es) oc hdue]
    cases hdec : decodeWith oc s.fetchBytes with
    | ok p =>
      rw [fetchExecuteWith_of_decodes hdec, fetchExecuteWith_of_decodes (s := s.withUnread g es) hdec]
      exact exec_withUnread g es p.1 s.fetchOpcode
    | error e =>
      rw [fetchExecuteWith_of_refused hdec, fetchExecuteWith_of_refused (s := s.withUnread g es) hdec]
      rfl

/-- No step does. -/
theorem step_withUnread (s : State) : step (s.withUnread g es) = mapNext (State.withUnread g es) (step s) := by
  unfold step State.stepWith
  rw [show (s.withUnread g es).run = s.run from rfl]
  cases s.run with
  | halted => rfl
  | faulted reason fpc fop => rfl
  | running =>
    unfold State.moveWith
    rw [show (s.withUnread g es).nextMoveWith Config.hostMove = s.nextMoveWith Config.hostMove from rfl]
    cases s.nextMoveWith Config.hostMove with
    | cycle => exact cycleWith_withUnread g es defaultOpcode s.takeMove
    | timerEvent => rfl
    | raiseLine i =>
      cases hw : lineWired i with
      | true => simp only [hw, if_true]; rfl
      | false => simp only [hw]; rfl

end Unread

/-- Settles O50: `step_withUnread` with no events and `ov` set to the value. -/
theorem overflowIsInert : Obligations.OverflowIsInert :=
  fun s b => step_withUnread (fun _ => b) [] s

/-- Settles O51: `step_withUnread` with `ov` left as it is. -/
theorem outputIsNotRead : Obligations.OutputIsNotRead :=
  fun s es => step_withUnread id es s

/-! #### IR -/

/-- Interrupt entry passes IR on (R710). -/
theorem interruptEntry_setIr (s : State) (v : Byte) (i : Line) :
    (s.setIr v).interruptEntry i = (s.interruptEntry i).setIr v := by
  have hstart : (s.setIr v).entryWithPc i = (s.entryWithPc i).setIr v := rfl
  have hfold := List.foldl_hom (State.setIr · v) (g₁ := State.pushReg) (g₂ := State.pushReg) (l := pushOrder)
    (init := s.entryWithPc i) fun _ _ => rfl
  rw [interruptEntry_eq, interruptEntry_eq, hstart, hfold]
  generalize pushOrder.foldl State.pushReg (s.entryWithPc i) = t
  rfl

/-- Settles O52: an entry passes IR on, and a fetch overwrites it before anything reads it. -/
theorem irIsNotObserved : Obligations.IrIsNotObserved := by
  intro oc s v
  split
  · next hdue =>
    obtain ⟨i, hi⟩ := Option.ne_none_iff_exists'.mp fun hnone => interruptDue_none_iff_not.mp hnone hdue
    rw [cycleWith_of_due oc hi, cycleWith_of_due (s := s.setIr v) oc hi, interruptEntry_setIr, mapNext_next]
  · next hquiet =>
    have hnone := interruptDue_none_iff_not.mpr hquiet
    rw [cycleWith_of_quiet oc hnone, cycleWith_of_quiet (s := s.setIr v) oc hnone]
    rfl

end Sys2Proof.Machine

/-! ### Who writes what, over a whole step (10_state.md, 20_memory.md R203, 42_output.md R500, 40_cycle_engine.md R410) -/

namespace Sys2Proof.Machine

/-- Where an interrupt is due, `ie` is true and a line is pending and enabled (R707). -/
theorem pending_of_due {s : State} {i : Line} (h : s.interruptDue = some i) : s.ie = true ∧ s.reg 6 &&& s.reg 5 ≠ 0 := by
  by_contra hn
  cases (interruptDue_none_iff_not.mpr hn).symm.trans h

/-- Where none is due, no line is pending and enabled while `ie` is true (R707). -/
theorem quiet_of_not_due {s : State} (h : s.interruptDue = none) : s.ie = true → s.reg 6 &&& s.reg 5 = 0 :=
  interruptDue_none.mp h

/-- Settles O53: neither entry nor an event writes R5, and an instruction only as `reg_exec` says. -/
theorem maskWriters : Obligations.MaskWriters := by
  intro s t h hchange
  obtain ⟨-, hto⟩ := step_cases h
  cases hto with
  | timer asked result =>
    subst result
    exact absurd (reg_raiseTimerEvent s.takeMove 5) hchange
  | line i asked wired result =>
    subst result
    exact absurd (reg_raiseLine s.takeMove i 5) hchange
  | cycle asked result =>
    cases result with
    | entry i due result =>
      subst result
      exact absurd (reg_interruptEntry s.takeMove i 5) hchange
    | illegal e quiet refused result =>
      subst result
      exact absurd rfl hchange
    | instr i rest quiet decodes runs =>
      have hwriter := reg_exec (s := s.takeMove.fetchOpcode) runs hchange
      exact ⟨asked, quiet_of_not_due quiet, i, rest, decodes,
        hwriter.imp_right fun h => h.resolve_right fun h7 => absurd h7.1 (by decide)⟩

/-- Settles O54: the events, entry, and an instruction as `reg_exec` says. -/
theorem statusWriters : Obligations.StatusWriters := by
  intro s t h hchange
  obtain ⟨-, hto⟩ := step_cases h
  cases hto with
  | timer asked result => exact .inr (.inl asked)
  | line i asked wired result => exact .inr (.inr (.inl ⟨i, asked⟩))
  | cycle asked result =>
    cases result with
    | entry i due result => exact .inl ⟨asked, pending_of_due due⟩
    | illegal e quiet refused result =>
      subst result
      exact absurd rfl hchange
    | instr i rest quiet decodes runs =>
      have hwriter := reg_exec (s := s.takeMove.fetchOpcode) runs hchange
      exact .inr (.inr (.inr ⟨asked, quiet_of_not_due quiet, i, rest, decodes,
        hwriter.imp_right fun h => h.resolve_right fun h7 => absurd h7.1 (by decide)⟩))

/-- Settles O55: entry writes its frame alone, and an instruction writes as `mem_exec` says. -/
theorem memoryWriters : Obligations.MemoryWriters := by
  intro s t a h hchange
  obtain ⟨-, hto⟩ := step_cases h
  cases hto with
  | timer asked result =>
    subst result
    exact absurd rfl hchange
  | line i asked wired result =>
    subst result
    exact absurd rfl hchange
  | cycle asked result =>
    refine ⟨asked, ?_⟩
    cases result with
    | entry i due result =>
      subst result
      have hdue : s.ie = true ∧ s.reg 6 &&& s.reg 5 ≠ 0 := pending_of_due due
      rw [if_pos hdue]
      by_contra hout
      exact hchange (read_interruptEntry_of_outside_frame s.takeMove i a fun k hk => hout ⟨k, hk⟩)
    | illegal e quiet refused result =>
      subst result
      exact absurd rfl hchange
    | instr i rest quiet decodes runs =>
      have hquiet : ¬ (s.ie = true ∧ s.reg 6 &&& s.reg 5 ≠ 0) := interruptDue_none_iff_not.mp quiet
      rw [if_neg hquiet]
      exact ⟨i, rest, decodes, mem_exec (s := s.takeMove.fetchOpcode) runs hchange⟩

/-- Settles O56: only an instruction outputs, as `out_exec` says. -/
theorem outputWriters : Obligations.OutputWriters := by
  intro s t h
  obtain ⟨-, hto⟩ := step_cases h
  cases hto with
  | timer asked result => exact .inl (result ▸ rfl)
  | line i asked wired result => exact .inl (result ▸ rfl)
  | cycle asked result =>
    cases result with
    | entry i due result => exact .inl (result ▸ out_interruptEntry s.takeMove i)
    | illegal e quiet refused result => exact .inl (result ▸ rfl)
    | instr i rest quiet decodes runs =>
      rcases out_exec runs with hout | ⟨r, rfl, hout⟩ | ⟨r, rfl, hout⟩
      · exact .inl hout
      · exact .inr ⟨asked, quiet_of_not_due quiet, r, rest, .inl ⟨decodes, hout⟩⟩
      · exact .inr ⟨asked, quiet_of_not_due quiet, r, rest, .inr ⟨decodes, hout⟩⟩

/-- Settles O58: events and entry leave the run state; an instruction changes it as `run_exec_cases` says. -/
theorem runStateTransitions : Obligations.RunStateTransitions := by
  intro s t h
  obtain ⟨hrun, hto⟩ := step_cases h
  refine ⟨hrun, ?_⟩
  cases hto with
  | timer asked result => exact .inl (result ▸ hrun)
  | line i asked wired result => exact .inl (result ▸ hrun)
  | cycle asked result =>
    cases result with
    | entry i due result => exact .inl (result ▸ (run_interruptEntry s.takeMove i).trans hrun)
    | illegal e quiet refused result => exact .inr ⟨asked, .inr ⟨decodeFault e, result⟩⟩
    | instr i rest quiet decodes runs =>
      rcases run_exec_cases runs with ⟨e, -, ht⟩ | ⟨rfl, ht⟩ | ⟨-, hsame⟩
      · exact .inr ⟨asked, .inr ⟨e, ht⟩⟩
      · exact .inr ⟨asked, .inl ⟨⟨rest, decodes⟩, ht⟩⟩
      · exact .inl (hsame.trans hrun)

/-! ### Progress (70_reset_and_hazards.md R808) -/

/-- `t` is `s` but for bits of IS that have been set and the host's moves. -/
structure OnlyPending (s t : State) : Prop where
  status : ∃ b : Byte, t.reg 6 = s.reg 6 ||| b
  regs : SameRegsBut [6] s t
  pc : t.pc = s.pc
  ir : t.ir = s.ir
  ie : t.ie = s.ie
  ov : t.ov = s.ov
  run : t.run = s.run
  out : t.out = s.out
  mem : SameMemory s t

theorem OnlyPending.refl (s : State) : OnlyPending s s :=
  ⟨⟨0, (BitVec.or_zero ..).symm⟩, fun _ _ => rfl, rfl, rfl, rfl, rfl, rfl, rfl, fun _ => rfl⟩

theorem OnlyPending.trans {s t u : State} (hst : OnlyPending s t) (htu : OnlyPending t u) : OnlyPending s u := by
  obtain ⟨b, hb⟩ := hst.status
  obtain ⟨c, hc⟩ := htu.status
  exact ⟨⟨b ||| c, by rw [hc, hb, BitVec.or_assoc]⟩, fun r hr => (htu.regs r hr).trans (hst.regs r hr),
    htu.pc.trans hst.pc, htu.ir.trans hst.ir, htu.ie.trans hst.ie, htu.ov.trans hst.ov, htu.run.trans hst.run,
    htu.out.trans hst.out, fun a => (htu.mem a).trans (hst.mem a)⟩

/-- An event is one bit of IS set. -/
theorem onlyPending_raiseLine (s : State) (i : Line) : OnlyPending s (s.takeMove.raiseLine i) :=
  ⟨⟨lineBit i, reg_raiseLine s.takeMove i 6⟩, sameRegsBut_raiseLine s.takeMove i, rfl, rfl, rfl, rfl, rfl, rfl,
    fun _ => rfl⟩

/-- Settles O59: a step that is no cycle is an event, and every cycle has a next state. -/
theorem onlyCyclesMakeProgress : Obligations.OnlyCyclesMakeProgress := by
  intro oc host s
  constructor
  · intro t h hmove
    have hpending : OnlyPending s t := by
      obtain ⟨-, hto⟩ := stepWith_cases h
      cases hto with
      | cycle asked result => exact absurd asked hmove
      | timer asked result => exact result ▸ raiseTimerEvent_eq s.takeMove ▸ onlyPending_raiseLine s 0
      | line i asked wired result => exact result ▸ onlyPending_raiseLine s i
    obtain ⟨hstatus, hregs, hpc, hir, hie, hov, hrun, hout, hmem⟩ := hpending
    exact ⟨hstatus, hregs, hpc, hir, hie, hov, hrun, hout, hmem⟩
  · intro hrun hmove
    exact (runningCycleNeverStuck oc s.takeMove).imp fun _ => (stepWith_cycle hrun hmove).trans

/-- Some number of steps leads to a state whose next move is a cycle, only bits of IS and the host's moves having changed. -/
def ReachesCycle (oc : OpcodeMap) (host : HostSchedule) (s : State) : Prop :=
  ∃ (k : Nat) (t : State), s.runWith oc host k = .next t ∧ t.nextMoveWith host = .cycle ∧ OnlyPending s t

section Reaching

variable {oc : OpcodeMap} {host : HostSchedule} {s t : State}

theorem runWith_succ (h : s.stepWith oc host = .next t) (k : Nat) : s.runWith oc host (k + 1) = t.runWith oc host k := by
  simp [State.runWith, Host.Core.run, h]

theorem reachesCycle_of_cycle (h : s.nextMoveWith host = .cycle) : ReachesCycle oc host s :=
  ⟨0, s, rfl, h, .refl s⟩

theorem reachesCycle_of_step (h : s.stepWith oc host = .next t) (hst : OnlyPending s t) (ht : ReachesCycle oc host t) :
    ReachesCycle oc host s := by
  obtain ⟨k, u, hrun, hmove, htu⟩ := ht
  exact ⟨k + 1, u, (runWith_succ h k).trans hrun, hmove, hst.trans htu⟩

/-- A running machine whose next move raises no line that is not wired is at a cycle, or an event takes it on. -/
theorem cycle_or_event (oc : OpcodeMap) (hrun : s.run = .running)
    (hwired : ∀ i, s.nextMoveWith host = .raiseLine i → lineWired i = true) :
    s.nextMoveWith host = .cycle ∨ ∃ t, s.stepWith oc host = .next t ∧ OnlyPending s t ∧ t.moves = s.moves.tail ∧
      t.turn = s.takeMove.turn := by
  cases hmove : s.nextMoveWith host with
  | cycle => exact .inl rfl
  | timerEvent => exact .inr ⟨_, stepWith_timerEvent hrun hmove, onlyPending_raiseLine s 0, rfl, rfl⟩
  | raiseLine i =>
    exact .inr ⟨_, (stepWith_raiseLine hrun hmove).trans (if_pos (hwired i hmove)), onlyPending_raiseLine s i, rfl, rfl⟩

/-- With no move listed, the schedule comes to its next cycle, by induction on how many turns away that is. -/
theorem reachesCycle_of_schedule (k : Nat) (hrun : s.run = .running) (hmoves : s.moves = [])
    (hcycle : host (s.turn + k) = .cycle) : ReachesCycle oc host s := by
  induction k generalizing s with
  | zero =>
    have hmove : s.nextMoveWith host = .cycle := by
      rw [nextMoveWith_nil host hmoves, scheduledMove, show host s.turn = .cycle from hcycle]
    exact reachesCycle_of_cycle hmove
  | succ k ih =>
    have hwired (i : Line) (h : s.nextMoveWith host = .raiseLine i) : lineWired i = true :=
      lineWired_of_scheduledMove ((nextMoveWith_nil host hmoves).symm.trans h)
    rcases cycle_or_event oc hrun hwired with hmove | ⟨t, hstep, hst, htail, hturn⟩
    · exact reachesCycle_of_cycle hmove
    · refine reachesCycle_of_step hstep hst (ih (hst.run.trans hrun) ?_ ?_)
      · rw [htail, hmoves, List.tail_nil]
      · rw [hturn, takeMove_nil hmoves, ← hcycle, Nat.add_assoc, Nat.add_comm 1]

/-- Under a host that keeps invoking cycles a running machine reaches one, by induction on the moves that are listed. -/
theorem reachesCycle_of_fair (hfair : FairHost host) (hrun : s.run = .running)
    (hwired : ∀ i, .raiseLine i ∈ s.moves → lineWired i = true) : ReachesCycle oc host s := by
  induction hmoves : s.moves generalizing s with
  | nil =>
    obtain ⟨k, hk⟩ := hfair s.turn
    exact reachesCycle_of_schedule k hrun hmoves hk
  | cons m ms ih =>
    have hnext : s.nextMoveWith host = m := by rw [State.nextMoveWith, hmoves]
    have hlisted (i : Line) (h : s.nextMoveWith host = .raiseLine i) : lineWired i = true :=
      hwired i (by rw [hmoves, ← h, hnext]; exact List.mem_cons_self)
    rcases cycle_or_event oc hrun hlisted with hmove | ⟨t, hstep, hst, htail, -⟩
    · exact reachesCycle_of_cycle hmove
    · have hms : t.moves = ms := by rw [htail, hmoves, List.tail_cons]
      refine reachesCycle_of_step hstep hst (ih (hst.run.trans hrun) (fun i hi => hwired i ?_) hms)
      rw [hmoves]
      exact List.mem_cons_of_mem m (hms ▸ hi)

end Reaching

/-- Settles O60: the cycle that is reached has a next state. -/
theorem fairHostReachesCycle : Obligations.FairHostReachesCycle := by
  intro oc host s hfair hrun hwired
  obtain ⟨k, t, hreach, hmove, hpending⟩ := reachesCycle_of_fair (oc := oc) hfair hrun hwired
  obtain ⟨u, hu⟩ := (onlyCyclesMakeProgress oc host t).2 (hpending.run.trans hrun) hmove
  obtain ⟨hstatus, hregs, hpc, hir, hie, hov, hrunt, hout, hmem⟩ := hpending
  exact ⟨k, t, u, hreach, hmove, hu, hstatus, hregs, hpc, hir, hie, hov, hrunt, hout, hmem⟩

end Sys2Proof.Machine

/-! ### Assembler text (30_encoding.md R311) -/

namespace Sys2Proof.Machine

/-! #### Splitting and trimming -/

/-- A text without a separator is one part. -/
theorem splitText_of_none {p : Char → Bool} {t : List Char} (h : ∀ c ∈ t, p c = false) : splitText p t = [t] := by
  induction t with
  | nil => rfl
  | cons c t ih =>
    have ht := ih fun d hd => h d (List.mem_cons_of_mem c hd)
    simp [splitText, h c List.mem_cons_self, ht]

/-- The part before the first separator is split off. -/
theorem splitText_append {p : Char → Bool} {t u : List Char} {c : Char} (h : ∀ d ∈ t, p d = false) (hc : p c = true) :
    splitText p (t ++ c :: u) = t :: splitText p u := by
  induction t with
  | nil => simp [splitText, hc]
  | cons d t ih =>
    have ht := ih fun e he => h e (List.mem_cons_of_mem d he)
    simp [splitText, h d List.mem_cons_self, ht]

/-- A text that neither begins nor ends with a blank is left by trimming. -/
theorem trimText_of_ends {t : List Char} (hhead : t.head? ≠ some ' ') (hlast : t.getLast? ≠ some ' ') : trimText t = t := by
  have hdrop {u : List Char} (hu : u.head? ≠ some ' ') : u.dropWhile (fun c => c == ' ') = u := by
    cases u with
    | nil => rfl
    | cons c u => exact List.dropWhile_cons_of_neg (by simpa using hu)
  rw [trimText, hdrop hhead, hdrop (by rwa [List.head?_reverse]), List.reverse_reverse]

/-- A blank before a text is trimmed off. -/
theorem trimText_blank (t : List Char) : trimText (' ' :: t) = trimText t := rfl

/-! #### Words -/

/-- A character that is neither a blank nor a separator. -/
def wordChar (c : Char) : Bool := c != ' ' && c != ',' && c != ';' && c != '\n'

/-- A text that is not empty and holds neither a blank nor a separator. -/
def IsWord (w : List Char) : Prop := w.isEmpty = false ∧ w.all wordChar = true

theorem isWord_mnemonicText (m : Mnemonic) : IsWord (mnemonicText m) := by
  cases m <;> exact ⟨rfl, rfl⟩

theorem isWord_decimalText (b : Byte) : IsWord (decimalText b) := by
  have hdigit : ∀ n < 10, wordChar (Char.ofNat (48 + n)) = true := by decide
  have hhundreds : b.toNat / 100 < 10 := by omega
  unfold decimalText
  split_ifs with hone htwo
  · exact ⟨rfl, by simp [hdigit _ hone]⟩
  · have htens : b.toNat / 10 < 10 := by omega
    exact ⟨rfl, by simp [hdigit _ htens, hdigit _ (Nat.mod_lt _ Nat.ofNat_pos)]⟩
  · exact ⟨rfl, by simp [hdigit _ hhundreds, hdigit _ (Nat.mod_lt _ Nat.ofNat_pos)]⟩

theorem isWord_registerText (b : Byte) : IsWord (registerText b) := by
  obtain ⟨-, h⟩ := isWord_decimalText b
  exact ⟨rfl, by rw [registerText, List.all_cons, h]; rfl⟩

/-- An immediate without `x` as its second character is decimal (R311). -/
theorem immediateOf_cons (c : Char) {cs : List Char} (h : cs.head? ≠ some 'x') :
    immediateOf (c :: cs) = byteOf? (digitsValue 10 0 (c :: cs)) := by
  unfold immediateOf
  split
  · simp at *
  · simp_all
  · simp_all
  · rfl

theorem byteOf?_toNat (b : Byte) : byteOf? (some b.toNat) = some b := by
  have hb : b.toNat ≤ 255 := by omega
  simp [byteOf?, hb]

/-- The decimal digits of a byte are read back as the byte. -/
theorem immediateOf_decimalText (b : Byte) : immediateOf (decimalText b) = some b := by
  have hvalue : ∀ n < 10, digitValue (Char.ofNat (48 + n)) = some n := by decide
  have hx : ∀ n < 10, some (Char.ofNat (48 + n)) ≠ some 'x' := by decide
  have hones : b.toNat % 10 < 10 := by omega
  unfold decimalText
  split_ifs with hone htwo
  · refine (immediateOf_cons _ (cs := []) nofun).trans ((congrArg byteOf? ?_).trans (byteOf?_toNat b))
    simp [digitsValue, hvalue _ hone, hone]
  · have htens : b.toNat / 10 < 10 := by omega
    have hsum : b.toNat / 10 * 10 + b.toNat % 10 = b.toNat := by omega
    refine (immediateOf_cons _ (cs := [_]) (hx _ hones)).trans ((congrArg byteOf? ?_).trans (byteOf?_toNat b))
    simp [digitsValue, hvalue _ htens, htens, hvalue _ hones, hones, hsum]
  · have hhundreds : b.toNat / 100 < 10 := by omega
    have htens : b.toNat / 10 % 10 < 10 := by omega
    have hsum : (b.toNat / 100 * 10 + b.toNat / 10 % 10) * 10 + b.toNat % 10 = b.toNat := by omega
    refine (immediateOf_cons _ (cs := [_, _]) (hx _ htens)).trans ((congrArg byteOf? ?_).trans (byteOf?_toNat b))
    simp [digitsValue, hvalue _ hhundreds, hhundreds, hvalue _ htens, htens, hvalue _ hones, hones, hsum]

theorem registerOf_registerText : ∀ r : RegIdx, registerOf (registerText (regByte r)) = some r := by decide

section Word

variable {w : List Char} (h : IsWord w)

include h

theorem wordChar_of_mem {c : Char} (hc : c ∈ w) : wordChar c = true := List.all_eq_true.mp h.2 c hc

/-- No character of a word is a separator or a blank. -/
theorem word_ne {c d : Char} (hd : wordChar d = false) (hc : c ∈ w) : c ≠ d := by
  rintro rfl
  exact absurd (wordChar_of_mem h hc) (by simp [hd])

theorem word_head? (rest : List Char) : (w ++ rest).head? ≠ some ' ' := by
  obtain ⟨c, cs, rfl⟩ := List.exists_cons_of_ne_nil fun hw : w = [] => by simp [IsWord, hw] at h
  simpa using word_ne h (d := ' ') rfl List.mem_cons_self

theorem word_getLast? (before : List Char) : (before ++ w).getLast? ≠ some ' ' := by
  have hne : w ≠ [] := fun hw : w = [] => by simp [IsWord, hw] at h
  rw [List.getLast?_append_of_ne_nil _ hne]
  exact fun hlast => word_ne h (d := ' ') rfl (List.mem_of_getLast? hlast) rfl

theorem trimText_word : trimText w = w :=
  trimText_of_ends (by simpa using word_head? h []) (word_getLast? h [])

end Word

/-! #### Statements -/

/-- The operand words of a statement, as they stand after its mnemonic. -/
def operandsText : List (List Char) → List Char
  | [] => []
  | [a] => ' ' :: a
  | a :: b :: _ => ' ' :: a ++ [',', ' '] ++ b

/-- The operand words of an instruction. -/
def operandWords : Instr → List (List Char)
  | .ldi d imm => [registerText d, decimalText imm]
  | i => i.registerBytes.map registerText

theorem instrText_eq (i : Instr) : instrText i = mnemonicText i.mnemonic ++ operandsText (operandWords i) := by
  cases i <;> rfl

/-- A statement's operands end with a word, after the blank that follows the mnemonic. -/
theorem operandsText_cases {ops : List (List Char)} (hops : ∀ w ∈ ops, IsWord w) :
    operandsText ops = [] ∨ ∃ before w, IsWord w ∧ operandsText ops = ' ' :: (before ++ w) := by
  match ops, hops with
  | [], _ => exact .inl rfl
  | [a], hops => exact .inr ⟨[], a, hops a (by simp), rfl⟩
  | a :: b :: _, hops => exact .inr ⟨a ++ [',', ' '], b, hops b (by simp), rfl⟩

theorem operandTexts_eq {t : List Char} (h : (trimText t).isEmpty = false) :
    operandTexts t = (splitText (fun c => c == ',') (trimText t)).map trimText := by
  unfold operandTexts
  cases htrim : trimText t with
  | nil => simp [htrim] at h
  | cons c cs => rfl

/-- The operand words are read back. -/
theorem operandTexts_operandsText {ops : List (List Char)} (hlen : ops.length ≤ 2) (hops : ∀ w ∈ ops, IsWord w) :
    operandTexts (operandsText ops) = ops := by
  have hcomma {w : List Char} (h : IsWord w) : ∀ c ∈ w, (c == ',') = false :=
    fun c hc => beq_false_of_ne (word_ne h rfl hc)
  match ops, hlen, hops with
  | [], _, _ => rfl
  | [a], _, hops =>
    have ha := hops a (by simp)
    have htrim : trimText (operandsText [a]) = a := trimText_word ha
    rw [operandTexts_eq (by rw [htrim]; exact ha.1), htrim, splitText_of_none (hcomma ha), List.map_singleton,
      trimText_word ha]
  | [a, b], _, hops =>
    have ha := hops a (by simp)
    have hb := hops b (by simp)
    have hends : (a ++ ',' :: ' ' :: b).getLast? ≠ some ' ' := by
      simpa using word_getLast? hb (a ++ [',', ' '])
    have htrim : trimText (operandsText [a, b]) = a ++ ',' :: ' ' :: b := by
      rw [operandsText, List.cons_append, List.cons_append, trimText_blank, List.append_assoc]
      exact trimText_of_ends (word_head? ha _) hends
    have hblank : ∀ c ∈ ' ' :: b, (c == ',') = false :=
      List.forall_mem_cons.mpr ⟨rfl, hcomma hb⟩
    rw [operandTexts_eq (by rw [htrim]; simp), htrim, splitText_append (hcomma ha) rfl, splitText_of_none hblank,
      List.map_cons, List.map_singleton, trimText_blank, trimText_word ha, trimText_word hb]

/-- Trimming leaves a statement. -/
theorem trimText_text (m : Mnemonic) {ops : List (List Char)} (hops : ∀ w ∈ ops, IsWord w) :
    trimText (mnemonicText m ++ operandsText ops) = mnemonicText m ++ operandsText ops := by
  have hm := isWord_mnemonicText m
  refine trimText_of_ends (word_head? hm _) ?_
  rcases operandsText_cases hops with h | ⟨before, w, hw, h⟩
  · rw [h, List.append_nil]
    exact word_getLast? hm []
  · simpa [h] using word_getLast? hw (mnemonicText m ++ ' ' :: before)

/-- A statement holds no separator of statements. -/
theorem not_separator_of_mem_text (m : Mnemonic) {ops : List (List Char)} (hops : ∀ w ∈ ops, IsWord w) :
    ∀ c ∈ mnemonicText m ++ operandsText ops, c ≠ ';' ∧ c ≠ '\n' := by
  have hword {w : List Char} (h : IsWord w) : ∀ c ∈ w, c ≠ ';' ∧ c ≠ '\n' :=
    fun c hc => ⟨word_ne h rfl hc, word_ne h rfl hc⟩
  refine List.forall_mem_append.mpr ⟨hword (isWord_mnemonicText m), ?_⟩
  match ops, hops with
  | [], _ => exact nofun
  | [a], hops => exact List.forall_mem_cons.mpr ⟨by decide, hword (hops a (by simp))⟩
  | a :: b :: _, hops =>
    simp only [operandsText, List.forall_mem_append, List.forall_mem_cons]
    exact ⟨⟨⟨by decide, hword (hops a (by simp))⟩, by decide, by decide, nofun⟩, hword (hops b (by simp))⟩

/-- A statement is read as its mnemonic and its operand words. -/
theorem parseStatement_text (m : Mnemonic) {ops : List (List Char)} (hlen : ops.length ≤ 2) (hops : ∀ w ∈ ops, IsWord w) :
    parseStatement (mnemonicText m ++ operandsText ops) = statementOf m m.format ops := by
  have hm := isWord_mnemonicText m
  have hword : ∀ c ∈ mnemonicText m, (c != ' ') = true := fun c hc => bne_iff_ne.mpr (word_ne hm rfl hc)
  have hfind : (Mnemonic.all.find? fun n => mnemonicText n = mnemonicText m) = some m := by
    cases m <;> rfl
  have hblank : (operandsText ops).takeWhile (fun c => c != ' ') = [] ∧
      (operandsText ops).dropWhile (fun c => c != ' ') = operandsText ops := by
    rcases operandsText_cases hops with h | ⟨before, w, hw, h⟩
    · rw [h]
      exact ⟨rfl, rfl⟩
    · rw [h]
      exact ⟨rfl, rfl⟩
  unfold parseStatement
  rw [trimText_text m hops, List.takeWhile_append_of_pos hword, List.dropWhile_append_of_pos hword, hblank.1, hblank.2,
    List.append_nil]
  simp only [hfind, operandTexts_operandsText hlen hops]

/-- A text without a separator of statements assembles to the encoding of the one statement it is. -/
theorem assembleWith_statement (oc : OpcodeMap) {t : List Char} {i : Instr} (hsep : ∀ c ∈ t, c ≠ ';' ∧ c ≠ '\n')
    (hne : (trimText t).isEmpty = false) (hparse : parseStatement t = some i) :
    assembleWith oc t = some (encodeWith oc i) := by
  have hsplit : splitText (fun c => c == ';' || c == '\n') t = [t] :=
    splitText_of_none fun c hc => by simp [hsep c hc]
  simp [assembleWith, programStatements, hsplit, hne, parseStatements, hparse]

/-! #### Instructions -/

theorem operandWords_length (i : Instr) : (operandWords i).length ≤ 2 := by
  cases i <;> simp [operandWords, Instr.registerBytes]

theorem isWord_operandWords {i : Instr} : ∀ w ∈ operandWords i, IsWord w := by
  cases i <;> simp [operandWords, Instr.registerBytes, isWord_registerText, isWord_decimalText]

/-- The operand words of a well-formed instruction give it back. -/
theorem statementOf_operandWords {i : Instr} (h : i.WellFormed) :
    statementOf i.mnemonic i.mnemonic.format (operandWords i) = some i := by
  cases i with
  | hlt | ret | iret => rfl
  | ldi d imm =>
    obtain ⟨r, rfl⟩ := exists_regByte (h d (by simp [Instr.registerBytes]))
    simp [operandWords, Instr.mnemonic, Mnemonic.format, statementOf, registerOf_registerText, immediateOf_decimalText,
      Mnemonic.instr]
  | prn a | pra a | push a | pop a | call a | jmp a =>
    obtain ⟨r, rfl⟩ := exists_regByte (h a (by simp [Instr.registerBytes]))
    simp [operandWords, Instr.registerBytes, Instr.mnemonic, Mnemonic.format, statementOf, registerOf_registerText,
      Mnemonic.instr]
  | mul a b | add a b | st a b =>
    obtain ⟨r1, rfl⟩ := exists_regByte (h a (by simp [Instr.registerBytes]))
    obtain ⟨r2, rfl⟩ := exists_regByte (h b (by simp [Instr.registerBytes]))
    simp [operandWords, Instr.registerBytes, Instr.mnemonic, Mnemonic.format, statementOf, registerOf_registerText,
      Mnemonic.instr]

/-- Settles O7: its text is one statement, read as its mnemonic and its operand words. -/
theorem assemblyOfInstructionText : Obligations.AssemblyOfInstructionText := by
  intro oc i h
  have hparse := parseStatement_text i.mnemonic (operandWords_length i) isWord_operandWords
  have hne : (trimText (mnemonicText i.mnemonic ++ operandsText (operandWords i))).isEmpty = false := by
    rw [trimText_text _ isWord_operandWords]
    cases i.mnemonic <;> rfl
  rw [instrText_eq]
  exact assembleWith_statement oc (not_separator_of_mem_text _ isWord_operandWords) hne
    (hparse.trans (statementOf_operandWords h))

end Sys2Proof.Machine
